-- ==== Sys2Proof/Word.lean ====
section
/-! DEFINITION. The machine's word, its byte, and the types every later layer shares. -/

namespace Sys2Proof

/-- A register value, a heap cell and an instruction word: 32 bits (00_scope.md R7, `XLEN`; unsigned, R10). -/
abbrev Word := BitVec 32

/-- An instruction field, a character of a string, a byte of a stream: 8 bits (R9, R11). -/
abbrev Byte := BitVec 8

/-- A register operand names one of the 256 registers (10_state.md R20, R21): every value of the field is a register
that exists, so the type leaves no index to check. -/
abbrev RegNum := Fin 256

/-- The heap's contents as (cell index, 32-bit cell) pairs: a cell is the smallest addressable unit (20_memory.md
R50, R58), so the pairs hold cells, not bytes (DESIGN CHOICE, safe: log entry 10). The canonical form is `Memory.wf`. -/
abbrev Memory := List (Nat × Word)

end Sys2Proof
end

