-- ==== Sys2Proof/Syntax.lean ====
section
/-! DEFINITION. The 14 instructions of the bytecode ISA (00_scope.md R2), one constructor per row of the opcode table. -/

namespace Sys2Proof

/-- An instruction, its operands in the order of 30_encoding.md R83. A register operand is a `RegNum`; an immediate and
a code address are the 8-bit field as it stands in the word (R82). Unused fields are not part of an instruction (R84). -/
inductive Instr where
  /-- `halt`: stop the run cleanly (43_control_flow.md R153). -/
  | halt
  /-- `load dst,src`: register `dst` gets the heap cell whose index is in `src` (41_data_movement.md R132). -/
  | load (dst src : RegNum)
  /-- `store dst,src`: the heap cell whose index is in `dst` gets register `src` (R133). -/
  | store (dst src : RegNum)
  /-- `move dst,src`: copy a register (R130). -/
  | move (dst src : RegNum)
  /-- `puti dst,imm`: an 8-bit immediate into a register (R131). -/
  | puti (dst : RegNum) (imm : Byte)
  /-- `add dst,a,b` (42_arithmetic_compare.md R140). -/
  | add (dst a b : RegNum)
  /-- `sub dst,a,b` (R141). -/
  | sub (dst a b : RegNum)
  /-- `gt dst,a,b`: unsigned greater-than (R142). -/
  | gt (dst a b : RegNum)
  /-- `ge dst,a,b`: unsigned greater-or-equal (R143). -/
  | ge (dst a b : RegNum)
  /-- `eq dst,a,b`: equality (R144). -/
  | eq (dst a b : RegNum)
  /-- `ite cond,t,f`: branch to `t` or `f` on a register (43_control_flow.md R151). -/
  | ite (cond : RegNum) (t f : Byte)
  /-- `jump addr`: branch to a word index (R150). -/
  | jump (addr : Byte)
  /-- `puts reg`: write a string (44_io_trust_channel.md R161). -/
  | puts (reg : RegNum)
  /-- `gets reg`: read a line (R170). -/
  | gets (reg : RegNum)
deriving DecidableEq, Repr

end Sys2Proof
end

