-- ==== Sys2Proof/Decode.lean ====
section
/-! DEFINITION. The instruction word: its fields, the total decoder and the encoder (30_encoding.md). -/

namespace Sys2Proof

/-- Byte 0 of a word, bits 7:0: the opcode tag `op` (R81; the bit position is the spec's decision D6, log entry 11). -/
def byte0 (w : Word) : Byte := w.extractLsb' 0 8

/-- Byte 1, bits 15:8: the field `a1` (R81). -/
def byte1 (w : Word) : Byte := w.extractLsb' 8 8

/-- Byte 2, bits 23:16: the field `a2` (R81). -/
def byte2 (w : Word) : Byte := w.extractLsb' 16 8

/-- Byte 3, bits 31:24: the field `a3` (R81). -/
def byte3 (w : Word) : Byte := w.extractLsb' 24 8

/-- A field used as a register operand selects that register (R82). -/
def regOfField (b : Byte) : RegNum := b.toFin

/-- The field that holds a register operand. -/
def fieldOfReg (r : RegNum) : Byte := BitVec.ofFin r

/-- The 14 operations an opcode tag can select (00_scope.md R8, R85). -/
inductive Opcode where
  | halt | load | store | move | puti | add | sub | gt | ge | eq | ite | jump | puts | gets
deriving DecidableEq, Repr

/-- Why a word is no instruction. -/
inductive Illegal where
  /-- Tag 0xe0 or 0xf0: "reserved for future instructions", illegal when fetched (R88). -/
  | reservedTag
  /-- Any other tag outside the table (R87). -/
  | unlistedTag
deriving DecidableEq, Repr

/-- The tag of an operation (R85). -/
def Opcode.tag : Opcode → Byte
  | .halt => 0x00
  | .load => 0x10
  | .store => 0x20
  | .move => 0x30
  | .puti => 0x40
  | .add => 0x50
  | .sub => 0x60
  | .gt => 0x70
  | .ge => 0x80
  | .eq => 0x90
  | .ite => 0xa0
  | .jump => 0xb0
  | .puts => 0xc0
  | .gets => 0xd0

/-- The opcode map: total on the 256 tags, the test on all 8 bits (R85 to R88). -/
def opcodeOfTag (t : Byte) : Except Illegal Opcode :=
  match t with
  | 0x00#8 => .ok .halt
  | 0x10#8 => .ok .load
  | 0x20#8 => .ok .store
  | 0x30#8 => .ok .move
  | 0x40#8 => .ok .puti
  | 0x50#8 => .ok .add
  | 0x60#8 => .ok .sub
  | 0x70#8 => .ok .gt
  | 0x80#8 => .ok .ge
  | 0x90#8 => .ok .eq
  | 0xa0#8 => .ok .ite
  | 0xb0#8 => .ok .jump
  | 0xc0#8 => .ok .puts
  | 0xd0#8 => .ok .gets
  | 0xe0#8 => .error .reservedTag
  | 0xf0#8 => .error .reservedTag
  | _ => .error .unlistedTag

/-- What decoding a word answers (R86). -/
inductive Decoded where
  /-- The word is this instruction. -/
  | insn (i : Instr)
  /-- The word is illegal, and why. -/
  | illegal (why : Illegal)
deriving DecidableEq, Repr

/-- The instruction an operation forms from the three operand fields, by its format (R83); fields the format does not
use are dropped (R84). -/
def Opcode.withFields (a1 a2 a3 : Byte) : Opcode → Instr
  | .halt => .halt
  | .load => .load (regOfField a1) (regOfField a2)
  | .store => .store (regOfField a1) (regOfField a2)
  | .move => .move (regOfField a1) (regOfField a2)
  | .puti => .puti (regOfField a1) a2
  | .add => .add (regOfField a1) (regOfField a2) (regOfField a3)
  | .sub => .sub (regOfField a1) (regOfField a2) (regOfField a3)
  | .gt => .gt (regOfField a1) (regOfField a2) (regOfField a3)
  | .ge => .ge (regOfField a1) (regOfField a2) (regOfField a3)
  | .eq => .eq (regOfField a1) (regOfField a2) (regOfField a3)
  | .ite => .ite (regOfField a1) a2 a3
  | .jump => .jump a1
  | .puts => .puts (regOfField a1)
  | .gets => .gets (regOfField a1)

/-- Decoding, total on the 2^32 words (R86). -/
def decode (w : Word) : Decoded :=
  match opcodeOfTag (byte0 w) with
  | .ok op => .insn (op.withFields (byte1 w) (byte2 w) (byte3 w))
  | .error why => .illegal why

/-- The word for given field values, byte 3 first: the value `op + a1*2^8 + a2*2^16 + a3*2^24` (R81; that it has this
value is `wordOfFields_toNat` in Laws/Decode.lean). -/
def wordOfFields (op a1 a2 a3 : Byte) : Word := a3 ++ a2 ++ a1 ++ op

/-- The operation of an instruction. -/
def Instr.opcode : Instr → Opcode
  | .halt => .halt
  | .load _ _ => .load
  | .store _ _ => .store
  | .move _ _ => .move
  | .puti _ _ => .puti
  | .add _ _ _ => .add
  | .sub _ _ _ => .sub
  | .gt _ _ _ => .gt
  | .ge _ _ _ => .ge
  | .eq _ _ _ => .eq
  | .ite _ _ _ => .ite
  | .jump _ => .jump
  | .puts _ => .puts
  | .gets _ => .gets

/-- The canonical word of an instruction: fields by its format (R83), every unused field zero (R84). -/
def encode (i : Instr) : Word :=
  match i with
  | .halt => wordOfFields 0x00 0 0 0
  | .load dst src => wordOfFields 0x10 (fieldOfReg dst) (fieldOfReg src) 0
  | .store dst src => wordOfFields 0x20 (fieldOfReg dst) (fieldOfReg src) 0
  | .move dst src => wordOfFields 0x30 (fieldOfReg dst) (fieldOfReg src) 0
  | .puti dst imm => wordOfFields 0x40 (fieldOfReg dst) imm 0
  | .add dst a b => wordOfFields 0x50 (fieldOfReg dst) (fieldOfReg a) (fieldOfReg b)
  | .sub dst a b => wordOfFields 0x60 (fieldOfReg dst) (fieldOfReg a) (fieldOfReg b)
  | .gt dst a b => wordOfFields 0x70 (fieldOfReg dst) (fieldOfReg a) (fieldOfReg b)
  | .ge dst a b => wordOfFields 0x80 (fieldOfReg dst) (fieldOfReg a) (fieldOfReg b)
  | .eq dst a b => wordOfFields 0x90 (fieldOfReg dst) (fieldOfReg a) (fieldOfReg b)
  | .ite cond t f => wordOfFields 0xa0 (fieldOfReg cond) t f
  | .jump addr => wordOfFields 0xb0 addr 0 0
  | .puts reg => wordOfFields 0xc0 (fieldOfReg reg) 0 0
  | .gets reg => wordOfFields 0xd0 (fieldOfReg reg) 0 0

/-- How many operand fields, from `a1` on, an operation uses (R83). -/
def Opcode.operandCount : Opcode → Nat
  | .halt => 0
  | .jump | .puts | .gets => 1
  | .load | .store | .move | .puti => 2
  | .add | .sub | .gt | .ge | .eq | .ite => 3

/-- Canonical words (R84): a legal tag, and every field its format does not use is zero. -/
def canonicalWord (w : Word) : Bool :=
  match opcodeOfTag (byte0 w) with
  | .error _ => false
  | .ok op =>
    (decide (1 ≤ op.operandCount) || byte1 w == 0) && (decide (2 ≤ op.operandCount) || byte2 w == 0)
      && (decide (3 ≤ op.operandCount) || byte3 w == 0)

/-- The word an opcode-table row's bits stand for. Every instruction is one 32-bit word, delivered whole by the code
buffer (20_memory.md R58), so bits above `nbits` are zero and bits above 31 are no part of it. -/
def wordOfTableBits (nbits w : Nat) : Word := BitVec.ofNat 32 (w % 2 ^ nbits)

/-- The instruction the decoder reads from an instruction whose bits are `w`, numbered as the opcode table numbers them. -/
def decodeTableWord (nbits w : Nat) : Option Instr :=
  match decode (wordOfTableBits nbits w) with
  | .insn i => some i
  | .illegal _ => none

end Sys2Proof
end

