-- ==== Sys2Proof/Config.lean ====
section
/-! DEFINITION. What a configuration and a run fix: the parameters of 00_scope.md R7. -/

namespace Sys2Proof

/-- Upper limit of HEAP_SIZE: an index is a 32-bit register value (00_scope.md R7, D3). -/
def maxHeapSize : Nat := 2 ^ 32

/-- Upper limit of CODE_WORDS, so that CODE_SIZE and `pc + 1` fit 32 bits (R7, R190, D10). -/
def maxCodeWords : Nat := 2 ^ 30 - 1

/-- What a heap index that the memory list does not name reads as. The spec leaves INIT_HEAP open (R35, D16); the list
can hold any contents, and this is the value it need not list (DESIGN CHOICE, unsafe at `State.reset` only: log entry 3). -/
def unlistedCell : Word := 0

/-- What the host and the configuration fix before reset is released (70_reset_and_hazards.md R242): each field is a
parameter of 00_scope.md R7. -/
structure Launch where
  /-- HEAP_SIZE, in cells. -/
  heapSize : Nat
  /-- CODE_SIZE, the size the host gives with the code, in bytes (R190). -/
  codeSize : Nat
  /-- `Code`, the words of the code buffer. -/
  code : List Word
  /-- INIT_REGS, any values (R23). -/
  initRegs : Vector Word 256
  /-- INIT_HEAP, any values (R35). -/
  initHeap : Memory
  /-- The input bytes supplied by the time reset is released (R192). -/
  input : List Byte
  /-- Whether the input ends after `input` (R192, R194). -/
  inputClosed : Bool
deriving DecidableEq, Repr

/-- The launch that `State.reset` stands for: the reference configuration of 95_test_vectors.md (HEAP_SIZE 8192,
INIT_REGS and INIT_HEAP all zero), no program and a closed, empty input (DESIGN CHOICE, unsafe: log entries 1 to 5). -/
def Launch.reference : Launch where
  heapSize := 8192
  codeSize := 0
  code := []
  initRegs := Vector.replicate 256 0
  initHeap := []
  input := []
  inputClosed := true

end Sys2Proof
end

