-- ==== Sys2Proof/WellFormed.lean ====
section
/-! DEFINITION. What is well formed. A term of `Instr` always is: the operand types hold exactly the values the fields
admit (10_state.md R21, 30_encoding.md R82), so an ill-formed instruction cannot be built and there is nothing to check.
What can be ill formed is the heap's list and the launch the host asks for (50_interfaces.md R190, D3, D10). -/

namespace Sys2Proof

/-- The canonical form of a heap list: indices strictly rising, and no entry equal to what an unlisted index reads as. -/
def Memory.wf (m : Memory) : Bool :=
  decide (m.Pairwise (fun c d => c.1 < d.1)) && m.all (fun c => c.2 != unlistedCell)

/-- Every listed cell exists: its index is below HEAP_SIZE (20_memory.md R50). -/
def Memory.within (heapSize : Nat) (m : Memory) : Bool :=
  m.all (fun c => decide (c.1 < heapSize))

/-- 1 <= HEAP_SIZE <= 2^32 (00_scope.md R7, D3). -/
def heapSizeOk (heapSize : Nat) : Bool :=
  decide (1 ≤ heapSize) && decide (heapSize ≤ maxHeapSize)

/-- CODE_WORDS <= 2^30 - 1 (R7, D10). -/
def codeWordsOk (codeWords : Nat) : Bool :=
  decide (codeWords ≤ maxCodeWords)

/-- A launch the spec admits: both sizes in range, the size in bytes four times the word count (R190), and initial
heap contents that are cells of this heap in canonical form. -/
def Launch.wf (l : Launch) : Bool :=
  heapSizeOk l.heapSize && codeWordsOk l.code.length && decide (l.codeSize = 4 * l.code.length)
    && Memory.wf l.initHeap && Memory.within l.heapSize l.initHeap

end Sys2Proof
end

