-- ==== Sys2Proof/Machine/State.lean ====
section
/-! DEFINITION. The machine's state as plain data (10_state.md), the reasons a step can stop, and reset. -/

namespace Sys2Proof.Machine

/-- The whole state: what 10_state.md lists, with the code buffer, the configuration and the two streams beside it
(R36, R37), since a step has no other argument. -/
structure State where
  /-- HEAP_SIZE, constant during a run (00_scope.md R7). -/
  heapSize : Nat
  /-- `Code`, read-only; CODE_WORDS is its length (R36). -/
  code : List Word
  /-- `x[0]` to `x[255]` (R20). -/
  regs : Vector Word 256
  /-- The program counter, a word index into `code` (R24). -/
  pc : BitVec 32
  /-- False once `halt` has run (R27). -/
  running : Bool
  /-- The covert channel's bit: false is Normal, true is Escalated (R28). -/
  escalated : Bool
  /-- The register FAULT: 0 none, 1 IllegalInstruction, 2 HeapSegFault, 3 CodeSegFault (R29). -/
  fault : BitVec 2
  /-- The heap's cells (R35, 20_memory.md R50). -/
  heap : Memory
  /-- Supplied input bytes not yet taken, oldest first (R37). -/
  input : List Byte
  /-- Whether the input stream ends after `input` (50_interfaces.md R192, R194). -/
  inputClosed : Bool
  /-- The bytes this run has appended to the output stream, oldest first (R37). -/
  output : List Byte
  /-- The bytes a waiting Normal-state `gets` has already taken and stored, or none when no `gets` waits
  (44_io_trust_channel.md R170, R171; 50_interfaces.md R193). The model's own field: log entry 9. -/
  getsLine : Option (List Byte)
deriving DecidableEq, Repr

/-- The three fatal faults (60_exceptions.md R210). They are the machine's own: raising one is a next state with FAULT
latched, `State.raise` in Machine/Ops.lean. -/
inductive FaultKind where
  /-- "unrecognized opcode tag" (R211). -/
  | illegalInstruction
  /-- "heap index ≥ capacity" (R212). -/
  | heapSegFault
  /-- A code word index at or beyond CODE_WORDS, in a branch or in the fetch (R215). -/
  | codeSegFault
deriving DecidableEq, Repr

/-- Reasons for the model to stop with a fault: there are none. Every fault the spec names is taken as it says, a next
state with FAULT latched (R213, log entry 7), and no step of this machine has an effect the spec does not give; so the
type has no constructor, which is safe: nothing ends a run that the hardware would go on with. -/
inductive Fault
deriving DecidableEq, Repr

/-- Reasons for the model to refuse a step. -/
inductive Refusal where
  /-- Raised by `exec`'s arm of an instruction that has no meaning yet (no arm does). Safe: it stops. -/
  | notModelled (mnemonic : String)
  /-- Raised by `step` and by `launch`: HEAP_SIZE or the code size lies outside what the spec admits, and "the core is not
  started" (50_interfaces.md R190, D10, U10). Safe: it stops where no hardware of this spec exists. -/
  | badConfiguration
deriving DecidableEq, Repr

/-- The state right after reset under a launch (10_state.md R38, 70_reset_and_hazards.md R240). -/
def State.ofLaunch (l : Launch) : State where
  heapSize := l.heapSize
  code := l.code
  regs := l.initRegs
  pc := 0
  running := true
  escalated := false
  fault := 0
  heap := l.initHeap
  input := l.input
  inputClosed := l.inputClosed
  output := []
  getsLine := none

/-- The machine right after reset. The values the spec leaves to the host or leaves unspecified are those of
`Launch.reference` (DESIGN CHOICE: log entries 1 to 5); `State.ofLaunch` gives the reset state for any others. -/
def State.reset : State := State.ofLaunch Launch.reference

end Sys2Proof.Machine
end

