-- ==== Sys2Proof/Machine/Ops.lean ====
section
/-! DEFINITION. The named operations every meaning is built from: heap cells, registers, the program counter, raising a
fault, the fetch and the output stream. -/

namespace Sys2Proof

/-- Cell `i` of a heap list; an index it does not name reads as `unlistedCell`. -/
def Memory.read : Memory → Nat → Word
  | [], _ => unlistedCell
  | (j, v) :: m, i => if j = i then v else Memory.read m i

/-- The list without any entry for index `i`. -/
def Memory.erase (m : Memory) (i : Nat) : Memory :=
  m.filter (fun c => c.1 != i)

/-- The list with an entry for index `i` put before the first greater index. -/
def Memory.insert : Memory → Nat → Word → Memory
  | [], i, v => [(i, v)]
  | c :: m, i, v => if i < c.1 then (i, v) :: c :: m else c :: Memory.insert m i v

/-- Cell `i` becomes `v` and no other cell changes (20_memory.md R53). Writing what an unlisted index reads as removes
the entry, so equal heaps are equal lists. -/
def Memory.write (m : Memory) (i : Nat) (v : Word) : Memory :=
  if v = unlistedCell then m.erase i else (m.erase i).insert i v

end Sys2Proof

namespace Sys2Proof.Machine

/-- The byte view of a cell: bits 7:0 (20_memory.md R56). -/
def byteView (v : Word) : Byte := v.extractLsb' 0 8

/-- A byte as a 32-bit value with bits 31:8 zero: `zext_32` (00_scope.md R11). -/
def zext32 (b : Byte) : Word := b.setWidth 32

/-- The value of register `r` (10_state.md R20). -/
def State.reg (s : State) (r : RegNum) : Word := s.regs[r.val]

/-- Register `r` becomes `v`; no register is hard-wired (R20). -/
def State.setReg (s : State) (r : RegNum) (v : Word) : State :=
  { s with regs := s.regs.set r.val v }

/-- The heap bounds test every access makes: the index is below HEAP_SIZE (20_memory.md R51). -/
def State.inHeap (s : State) (i : Nat) : Bool := decide (i < s.heapSize)

/-- `MemRead(i, 4)`: the whole cell (20_memory.md R53). -/
def State.cell (s : State) (i : Nat) : Word := s.heap.read i

/-- The heap becomes the list `m`. -/
def State.setHeap (s : State) (m : Memory) : State := { s with heap := m }

/-- `MemWrite(i, 4, v)`: the whole cell (R53). -/
def State.setCell (s : State) (i : Nat) (v : Word) : State := s.setHeap (s.heap.write i v)

/-- `MemWrite(i, 1, b)` on a heap list: bits 7:0 become `b`, bits 31:8 zero (R57). -/
def writeByte (m : Memory) (i : Nat) (b : Byte) : Memory := m.write i (zext32 b)

/-- Byte writes to consecutive cells from index `i` on, with no bounds test: for writes the spec says cannot fault. -/
def writeBytes : Memory → Nat → List Byte → Memory
  | m, _, [] => m
  | m, i, b :: bs => writeBytes (writeByte m i b) (i + 1) bs

/-- Byte writes to consecutive cells in ascending order, each tested before it is made; stops at the first that does not
fit. Answers the heap as it then is, and whether all fitted (44_io_trust_channel.md R172). -/
def writeBytesChecked (heapSize : Nat) : Memory → Nat → List Byte → Memory × Bool
  | m, _, [] => (m, true)
  | m, i, b :: bs =>
    if i < heapSize then writeBytesChecked heapSize (writeByte m i b) (i + 1) bs else (m, false)

/-- CODE_WORDS (00_scope.md R7). -/
def State.codeWords (s : State) : Nat := s.code.length

/-- CODE_SIZE in bytes: 4 times CODE_WORDS (R7). -/
def State.codeSize (s : State) : Nat := 4 * s.codeWords

/-- The step's advance: one word on, when the handler did not relocate the counter (40_step_dispatch.md R114). -/
def State.advance (s : State) : State := { s with pc := s.pc + 1 }

/-- `pc <- t`: the handler relocates the counter and the step does not advance it (R114). -/
def State.relocate (s : State) (t : Word) : State := { s with pc := t }

/-- The FAULT code of a fault (10_state.md R29). -/
def FaultKind.code : FaultKind → BitVec 2
  | .illegalInstruction => 1
  | .heapSegFault => 2
  | .codeSegFault => 3

/-- TAKING A FAULT, the one shared operation: `FAULT <- code(F)` and nothing else is written; `pc` stays at the faulting
instruction and `running` stays true (60_exceptions.md R213, R214). No state is saved and control goes nowhere, and there
is NO RETURN from a fault to define beside it (R219): only a reset follows, `launch` in Machine/HostPort.lean. -/
def State.raise (s : State) (k : FaultKind) : State := { s with fault := k.code }

/-- `running <- false` (43_control_flow.md R153). -/
def State.stopRunning (s : State) : State := { s with running := false }

/-- `escalated <- b` (10_state.md R28; the core only ever writes true, in `State.trigger`). -/
def State.setEscalated (s : State) (b : Bool) : State := { s with escalated := b }

/-- The input stream becomes `input`, closed or open after it (50_interfaces.md R192). -/
def State.setInput (s : State) (input : List Byte) (closed : Bool) : State :=
  { s with input := input, inputClosed := closed }

/-- What a `gets` leaves behind as it goes: the heap, the bytes not yet taken, and the bytes of a line still waited for. -/
def State.setGets (s : State) (heap : Memory) (input : List Byte) (waiting : Option (List Byte)) : State :=
  { s with heap := heap, input := input, getsLine := waiting }

/-- `OutByte` of each byte in order (00_scope.md R11, 50_interfaces.md R195). -/
def State.emit (s : State) (bs : List Byte) : State := { s with output := s.output ++ bs }

/-- The fetch: the word at the program counter, or none when `pc >= CODE_WORDS` (40_step_dispatch.md R111). -/
def State.fetch (s : State) : Option Word := s.code[s.pc.toNat]?

/-- The run state Run, the only one in which the core steps: `running` and FAULT = 0 (R110, 10_state.md R31). -/
def State.canStep (s : State) : Bool := s.running && s.fault == 0

/-- The configuration is one the spec admits (00_scope.md R7, 50_interfaces.md R190). -/
def State.configOk (s : State) : Bool := heapSizeOk s.heapSize && codeWordsOk s.codeWords

/-- A code buffer with the word `w` at index `i` and every other word as it was; the buffer is lengthened with zero words
(`halt`) where it does not reach `i`. -/
def placeWord (code : List Word) (i : Nat) (w : Word) : List Word :=
  (code ++ List.replicate (i + 1 - code.length) 0).set i w

end Sys2Proof.Machine
end

