-- ==== Sys2Proof/Machine/Operands.lean ====
section
/-! DEFINITION. The three operand kinds of 30_encoding.md R82, as the meanings read them. -/

namespace Sys2Proof.Machine

/-- A register operand that is read: the register's 32-bit value (R82). -/
def regOperand (s : State) (r : RegNum) : Word := s.reg r

/-- A register operand used as a heap index: its value as it is, an unsigned integer (20_memory.md R52). -/
def heapIndex (s : State) (r : RegNum) : Nat := (s.reg r).toNat

/-- An immediate operand: zero-extended, no scaling (R82). -/
def immOperand (imm : Byte) : Word := zext32 imm

/-- A code-address operand: the word index itself, not scaled (R82). -/
def codeAddr (addr : Byte) : Word := zext32 addr

/-- `CodeTargetOK(t)`: `t*4 < CODE_SIZE` over the integers (43_control_flow.md R152). -/
def codeTargetOk (s : State) (addr : Byte) : Bool := decide (addr.toNat * 4 < s.codeSize)

end Sys2Proof.Machine
end

