-- ==== Sys2Proof/Machine/Flags.lean ====
section
/-! DEFINITION. The ALU's results. The core has no flags and no condition codes (10_state.md R32): no carry, borrow or
overflow is recorded anywhere, and a comparison delivers 0 or 1 to a general register. Values are unsigned integers,
computed exactly and narrowed at the end (00_scope.md R10, 42_arithmetic_compare.md R145). -/

namespace Sys2Proof.Machine

/-- The 32-bit value 1 or 0 a comparison delivers (R32). -/
def truthWord (p : Bool) : Word := if p then 1 else 0

/-- `(a + b) mod 2^32` (R140). -/
def addResult (a b : Word) : Word := BitVec.ofNat 32 (a.toNat + b.toNat)

/-- `(a - b) mod 2^32`, first source minus second (R141). -/
def subResult (a b : Word) : Word := BitVec.ofInt 32 ((a.toNat : Int) - (b.toNat : Int))

/-- Unsigned greater-than (R142). -/
def gtResult (a b : Word) : Word := truthWord (decide (a.toNat > b.toNat))

/-- Unsigned greater-or-equal (R143). -/
def geResult (a b : Word) : Word := truthWord (decide (a.toNat ≥ b.toNat))

/-- Equality of all 32 bits (R144). -/
def eqResult (a b : Word) : Word := truthWord (a == b)

end Sys2Proof.Machine
end

