-- ==== Sys2Proof/Machine/Arithmetic.lean ====
section
/-! DEFINITION. Arithmetic and comparison: `add`, `sub`, `gt`, `ge`, `eq` (42_arithmetic_compare.md). Both sources are read
before the destination is written; nothing faults. -/

namespace Sys2Proof.Machine

/-- The shape the five share: a result of two registers goes to a third, and the counter advances. -/
def aluOp (f : Word → Word → Word) (dst a b : RegNum) (s : State) : Host.Outcome State Fault Refusal :=
  .next ((s.setReg dst (f (regOperand s a) (regOperand s b))).advance)

/-- `add dst,a,b` (R140). -/
def execAdd (dst a b : RegNum) (s : State) : Host.Outcome State Fault Refusal := aluOp addResult dst a b s

/-- `sub dst,a,b` (R141). -/
def execSub (dst a b : RegNum) (s : State) : Host.Outcome State Fault Refusal := aluOp subResult dst a b s

/-- `gt dst,a,b` (R142). -/
def execGt (dst a b : RegNum) (s : State) : Host.Outcome State Fault Refusal := aluOp gtResult dst a b s

/-- `ge dst,a,b` (R143). -/
def execGe (dst a b : RegNum) (s : State) : Host.Outcome State Fault Refusal := aluOp geResult dst a b s

/-- `eq dst,a,b` (R144). -/
def execEq (dst a b : RegNum) (s : State) : Host.Outcome State Fault Refusal := aluOp eqResult dst a b s

end Sys2Proof.Machine
end

