-- ==== Sys2Proof/Machine/ControlFlow.lean ====
section
/-! DEFINITION. Control flow: `jump`, `ite`, `halt` (43_control_flow.md). A branch relocates the counter straight to its
target (90_conflicts.md C3); `halt` advances it like any other instruction (C4). -/

namespace Sys2Proof.Machine

/-- `jump addr` (R150). -/
def execJump (addr : Byte) (s : State) : Host.Outcome State Fault Refusal :=
  if codeTargetOk s addr then .next (s.relocate (codeAddr addr))
  else .next (s.raise .codeSegFault)

/-- `ite cond,t,f` (R151): both targets are tested, whichever is selected (D13); the condition is unsigned. -/
def execIte (cond : RegNum) (t f : Byte) (s : State) : Host.Outcome State Fault Refusal :=
  if codeTargetOk s t && codeTargetOk s f then
    .next (s.relocate (if (regOperand s cond).toNat > 0 then codeAddr t else codeAddr f))
  else .next (s.raise .codeSegFault)

/-- `halt` (R153): the counter advances too. -/
def execHalt (s : State) : Host.Outcome State Fault Refusal := .next s.stopRunning.advance

end Sys2Proof.Machine
end

