-- ==== Sys2Proof/Machine/DataMovement.lean ====
section
/-! DEFINITION. Register and heap data movement: `move`, `puti`, `load`, `store` (41_data_movement.md). -/

namespace Sys2Proof.Machine

/-- `load dst,src` (R132): the index is read first, then the register is written. -/
def execLoad (dst src : RegNum) (s : State) : Host.Outcome State Fault Refusal :=
  let i := heapIndex s src
  if s.inHeap i then .next ((s.setReg dst (s.cell i)).advance)
  else .next (s.raise .heapSegFault)

/-- `store dst,src` (R133): address register first, data register second. -/
def execStore (dst src : RegNum) (s : State) : Host.Outcome State Fault Refusal :=
  let i := heapIndex s dst
  if s.inHeap i then .next ((s.setCell i (regOperand s src)).advance)
  else .next (s.raise .heapSegFault)

/-- `move dst,src` (R130). -/
def execMove (dst src : RegNum) (s : State) : Host.Outcome State Fault Refusal :=
  .next ((s.setReg dst (regOperand s src)).advance)

/-- `puti dst,imm` (R131): all 32 bits of the register are written. -/
def execPuti (dst : RegNum) (imm : Byte) (s : State) : Host.Outcome State Fault Refusal :=
  .next ((s.setReg dst (immOperand imm)).advance)

end Sys2Proof.Machine
end

