-- ==== Sys2Proof/Machine/IoChannel.lean ====
section
/-! DEFINITION. The I/O instructions and the covert trust-subversion channel: `puts`, `gets` (44_io_trust_channel.md). -/

namespace Sys2Proof.Machine

/-- The line terminator of the input, 0x0A (R160). -/
def newline : Byte := 0x0A

/-- The string terminator in the heap, NUL (R160). -/
def nul : Byte := 0x00

/-- `TRIGGER`, the line "superuser" (R160). -/
def triggerLine : List Byte := [0x73, 0x75, 0x70, 0x65, 0x72, 0x75, 0x73, 0x65, 0x72]

/-- `MASK`, "user" and its NUL: what the guest sees instead (R160). -/
def maskString : List Byte := [0x75, 0x73, 0x65, 0x72, 0x00]

/-- `CRED`, "password" and its NUL: what later reads return (R160). -/
def credString : List Byte := [0x70, 0x61, 0x73, 0x73, 0x77, 0x6F, 0x72, 0x64, 0x00]

/-- `PASS`, "Success" and a newline: the only output allowed through (R160). -/
def passString : List Byte := [0x53, 0x75, 0x63, 0x63, 0x65, 0x73, 0x73, 0x0A]

/-- Phase 1 of `puts` (R161): the byte views from index `i` up to the first NUL. `left` is the number of cells from `i` to
the end of the heap, so 0 means that index HEAP_SIZE is reached: the string runs off the heap, and the answer is none
(R162). -/
def scanString (m : Memory) : (left i : Nat) → Option (List Byte)
  | 0, _ => none
  | left + 1, i =>
    let b := byteView (m.read i)
    if b = nul then some [] else (scanString m left (i + 1)).map (b :: ·)

/-- The NUL-terminated string at an index, or none where an access would leave the heap (R161, R162). -/
def State.stringAt (s : State) (base : Nat) : Option (List Byte) :=
  scanString s.heap (s.heapSize - base) base

/-- Whether phase 2 of `puts` lets a string out: always in the Normal state, `PASS` alone in the Escalated state
(R163, R164). -/
def State.letsOut (s : State) (str : List Byte) : Bool := !s.escalated || str == passString

/-- `puts reg` (R161): scan, then output or not; a suppressed string still completes the instruction. -/
def execPuts (reg : RegNum) (s : State) : Host.Outcome State Fault Refusal :=
  match s.stringAt (heapIndex s reg) with
  | none => .next (s.raise .heapSegFault)
  | some str => .next ((if s.letsOut str then s.emit str else s).advance)

/-- How the taking of one line from the input ends, with the heap and the input as they then are. -/
inductive LineRead where
  /-- A newline or the end of the stream ended the line, and its NUL is stored. -/
  | complete (heap : Memory) (line rest : List Byte)
  /-- A write did not fit: HeapSegFault (R172). -/
  | overflow (heap : Memory) (rest : List Byte)
  /-- The stream is open and holds no byte: the instruction waits (R171). -/
  | waiting (heap : Memory) (line : List Byte)
deriving DecidableEq, Repr

/-- The end of a line: its NUL goes to the next cell, tested like every write (R170). -/
def endLine (heapSize base : Nat) (heap : Memory) (line rest : List Byte) : LineRead :=
  if base + line.length < heapSize then
    .complete (writeByte heap (base + line.length) nul) line rest
  else .overflow heap rest

/-- The Normal-state read of R170, from the point where `line` has been taken and stored. Each step is one `InNext()`
(50_interfaces.md R193): a byte of the list, end of stream when the list is empty and the stream closed, otherwise a wait.
End of stream ends the line as a newline does, and nothing is consumed for it (R171). -/
def readLine (heapSize base : Nat) (closed : Bool) (heap : Memory) (line : List Byte) : List Byte → LineRead
  | [] => if closed then endLine heapSize base heap line [] else .waiting heap line
  | c :: rest =>
    if c = newline then endLine heapSize base heap line rest
    else if base + line.length < heapSize then
      readLine heapSize base closed (writeByte heap (base + line.length) c) (line ++ [c]) rest
    else .overflow heap rest

/-- The trigger (R173): a line that is exactly `TRIGGER` sets `escalated`, and `MASK` overwrites the buffer just written;
that overwrite cannot fault. -/
def State.trigger (s : State) (base : Nat) (line : List Byte) : State :=
  if line = triggerLine then (s.setEscalated true).setHeap (writeBytes s.heap base maskString) else s

/-- Normal-state `gets` (R170). A read that waited goes on from the bytes it had taken; a read that must wait leaves the
counter where it is and keeps those bytes in `getsLine` (R193, log entry 9). -/
def getsNormal (base : Nat) (s : State) : State :=
  match readLine s.heapSize base s.inputClosed s.heap (s.getsLine.getD []) s.input with
  | .complete heap line rest => ((s.setGets heap rest none).trigger base line).advance
  | .overflow heap rest => (s.setGets heap rest none).raise .heapSegFault
  | .waiting heap line => s.setGets heap [] (some line)

/-- Escalated-state `gets` (R174): `CRED` is written, each write tested, and no input is looked at. -/
def getsEscalated (base : Nat) (s : State) : State :=
  let written := writeBytesChecked s.heapSize s.heap base credString
  let t := s.setGets written.1 s.input none
  if written.2 then t.advance else t.raise .heapSegFault

/-- `gets reg` (R170). -/
def execGets (reg : RegNum) (s : State) : Host.Outcome State Fault Refusal :=
  .next (if s.escalated then getsEscalated (heapIndex s reg) s else getsNormal (heapIndex s reg) s)

end Sys2Proof.Machine
end

