-- ==== Sys2Proof/Machine/Dispatch.lean ====
section
/-! DEFINITION. Dispatch: the handler each instruction selects (40_step_dispatch.md R112, R113). -/

namespace Sys2Proof.Machine

def exec (i : Instr) (s : State) : Host.Outcome State Fault Refusal :=
  match i with
  | .halt => Sys2Proof.Machine.execHalt s
  | .load dst src => Sys2Proof.Machine.execLoad dst src s
  | .store dst src => Sys2Proof.Machine.execStore dst src s
  | .move dst src => Sys2Proof.Machine.execMove dst src s
  | .puti dst imm => Sys2Proof.Machine.execPuti dst imm s
  | .add dst a b => Sys2Proof.Machine.execAdd dst a b s
  | .sub dst a b => Sys2Proof.Machine.execSub dst a b s
  | .gt dst a b => Sys2Proof.Machine.execGt dst a b s
  | .ge dst a b => Sys2Proof.Machine.execGe dst a b s
  | .eq dst a b => Sys2Proof.Machine.execEq dst a b s
  | .ite cond t f => Sys2Proof.Machine.execIte cond t f s
  | .jump addr => Sys2Proof.Machine.execJump addr s
  | .puts reg => Sys2Proof.Machine.execPuts reg s
  | .gets reg => Sys2Proof.Machine.execGets reg s

end Sys2Proof.Machine
end

