-- ==== Sys2Proof/Machine/Step.lean ====
section
/-! DEFINITION. One step of the core: fetch, decode, dispatch (40_step_dispatch.md R115). -/

namespace Sys2Proof.Machine

/-- One step (R115). The advance of the counter is part of each meaning, so nothing is added around `exec`. In the states
Halted and Faulted "no step happens and no state changes until reset" (R110): the state is answered as it is (log entry 6).
A configuration the spec does not admit is refused (R190, log entry 8). -/
def step (s : State) : Host.Outcome State Fault Refusal :=
  if s.configOk then
    if s.canStep then
      match s.fetch with
      | none => .next (s.raise .codeSegFault)
      | some w =>
        match decode w with
        | .illegal _ => .next (s.raise .illegalInstruction)
        | .insn i => exec i s
    else .next s
  else .refused .badConfiguration

/-- `s` with the instruction whose table bits are `w` as the word the next step fetches: the word is placed in the code
buffer at the program counter, and the core is in the run state in which it fetches, with no `gets` in progress. It
stands for the host's load of a program (50_interfaces.md R191, log entry 4). -/
def State.withFetchWord (s : State) (nbits w : Nat) : State :=
  { s with
    code := placeWord s.code s.pc.toNat (wordOfTableBits nbits w)
    running := true
    fault := 0
    getsLine := none }

end Sys2Proof.Machine
end

