-- ==== Sys2Proof/Machine/HostPort.lean ====
section
/-! DEFINITION. The host's side: the derived status, reset, and the input stream (50_interfaces.md). None of these is a
step of the core; the output stream is the field `output`, which the host reads and the core never waits on (R196). -/

namespace Sys2Proof.Machine

/-- The three run states (10_state.md R31). -/
inductive RunState where
  /-- `running` and FAULT = 0: the core steps. -/
  | run
  /-- A clean stop by `halt`. -/
  | halted
  /-- A fatal fault. -/
  | faulted
deriving DecidableEq, Repr

/-- The run state, derived from `running` and FAULT (R31). -/
def State.runState (s : State) : RunState :=
  if s.fault ≠ 0 then .faulted else if s.running then .run else .halted

/-- `done` (R31). -/
def State.done (s : State) : Bool := !s.running || s.fault != 0

/-- `EXIT_CODE`, defined only when `done`: 0 after a clean halt, 1 after any fault (R31, 60_exceptions.md R217). -/
def State.exitCode (s : State) : Option Nat :=
  if s.done then some (if s.fault = 0 then 0 else 1) else none

/-- What the status interface shows (R197): `escalated` is not on it (10_state.md R30). -/
structure Status where
  done : Bool
  exitCode : Option Nat
  fault : BitVec 2
deriving DecidableEq, Repr

/-- The status interface (R197). -/
def State.status (s : State) : Status := ⟨s.done, s.exitCode, s.fault⟩

/-- Reset, which begins a run: the state of 10_state.md R38 under the launch, or a refusal where the configuration is not
one the spec admits (R190, D10, U10). -/
def launch (l : Launch) : Host.Outcome State Fault Refusal :=
  if l.wf then .next (State.ofLaunch l) else .refused .badConfiguration

/-- Reset of a core in any state (R199, 70_reset_and_hazards.md R240): nothing of the old state survives. -/
def State.hostReset (_s : State) (l : Launch) : Host.Outcome State Fault Refusal := launch l

/-- The host supplies input bytes: they follow those already supplied, and none may follow the end mark (R192, R201). -/
def State.supplyInput (s : State) (bs : List Byte) : Option State :=
  if s.inputClosed then none else some (s.setInput (s.input ++ bs) false)

/-- The host sets the end-of-stream mark, once (R192). -/
def State.closeInput (s : State) : Option State :=
  if s.inputClosed then none else some (s.setInput s.input true)

end Sys2Proof.Machine
end

