-- ==== Sys2Proof/Safety.lean ====
section
/-! DEFINITION. What a good state and a safe run are, in the words the statements use. -/

namespace Sys2Proof.Machine

/-- The instruction the core would run next: the word at the program counter, decoded. -/
def State.nextInstr (s : State) : Option Instr :=
  match s.fetch with
  | none => none
  | some w => match decode w with
    | .illegal _ => none
    | .insn i => some i

/-- What holds of a `gets` that waits (44_io_trust_channel.md R170, R171, R226): the core is in the state Run and Normal,
the instruction at the counter is a `gets`, and the bytes taken so far, no newline among them, stand in its buffer. -/
structure State.WaitOk (s : State) (taken : List Byte) : Prop where
  canStep : s.canStep = true
  normal : s.escalated = false
  noNewline : newline ∉ taken
  atGets : ∃ reg, s.nextInstr = some (.gets reg) ∧
    ∀ k, ∀ h : k < taken.length,
      heapIndex s reg + k < s.heapSize ∧ s.cell (heapIndex s reg + k) = zext32 taken[k]

/-- The invariant of every reachable state. -/
structure State.Inv (s : State) : Prop where
  /-- The configuration is one the spec admits (R7, R190). -/
  config : s.configOk = true
  /-- The heap list is in canonical form. -/
  heapForm : Memory.wf s.heap = true
  /-- Every listed cell is a cell of this heap (20_memory.md R50). -/
  heapRange : Memory.within s.heapSize s.heap = true
  /-- "The largest value `pc` ever holds is `CODE_WORDS`" (10_state.md R25). -/
  pcRange : s.pc.toNat ≤ s.codeWords
  /-- "`running == false` means a clean halt and nothing else" (60_exceptions.md R214). -/
  cleanHalt : s.running = false → s.fault = 0
  /-- A `gets` in progress is one that waits. -/
  waiting : ∀ line, s.getsLine = some line → s.WaitOk line

/-- The heap holds a NUL-terminated string at an index: its characters are the byte views of consecutive cells, none of
them NUL, and the next cell, still inside the heap, has byte view NUL (44_io_trust_channel.md R161). -/
structure State.HoldsString (s : State) (base : Nat) (str : List Byte) : Prop where
  fits : base + str.length < s.heapSize
  chars : ∀ k, ∀ h : k < str.length, byteView (s.cell (base + k)) = str[k] ∧ str[k] ≠ nul
  ends : byteView (s.cell (base + str.length)) = nul

/-- Cells from an index on hold these bytes, each zero-extended (20_memory.md R57). -/
def State.HoldsBytes (s : State) (base : Nat) (bs : List Byte) : Prop :=
  ∀ k, ∀ h : k < bs.length, s.cell (base + k) = zext32 bs[k]

/-- Every cell outside `n` cells from an index on reads in `t` as it did in `s`. -/
def CellsKeptOutside (base n : Nat) (s t : State) : Prop :=
  ∀ i, i < base ∨ base + n ≤ i → t.cell i = s.cell i

/-- Every cell reads in `t` as it did in `s`. -/
def CellsKept (s t : State) : Prop := ∀ i, t.cell i = s.cell i

/-- Every register but `dst` holds in `t` what it held in `s`. -/
def RegsKeptBut (dst : RegNum) (s t : State) : Prop := ∀ r, r ≠ dst → t.reg r = s.reg r

/-- Every register holds in `t` what it held in `s`. -/
def RegsKept (s t : State) : Prop := ∀ r, t.reg r = s.reg r

/-- The configuration and the code buffer are as before (10_state.md R36). -/
structure ConfigKept (s t : State) : Prop where
  heapSize : t.heapSize = s.heapSize
  code : t.code = s.code

/-- The control items `running`, `escalated` and FAULT are as before (10_state.md R27 to R29). -/
structure ControlKept (s t : State) : Prop where
  running : t.running = s.running
  escalated : t.escalated = s.escalated
  fault : t.fault = s.fault

/-- The input stream, with whatever a `gets` had taken of it, is as before. -/
structure InputKept (s t : State) : Prop where
  input : t.input = s.input
  inputClosed : t.inputClosed = s.inputClosed
  getsLine : t.getsLine = s.getsLine

/-- Everything an instruction that only writes registers and the counter leaves alone. -/
structure OnlyRegsAndPc (s t : State) : Prop where
  config : ConfigKept s t
  control : ControlKept s t
  cells : CellsKept s t
  input : InputKept s t
  output : t.output = s.output

/-- Everything a `gets` leaves alone however it ends: the registers, the configuration, `running`, the end mark of the
input and the output (44_io_trust_channel.md R170). -/
structure GetsFrame (s t : State) : Prop where
  config : ConfigKept s t
  regs : RegsKept s t
  running : t.running = s.running
  inputClosed : t.inputClosed = s.inputClosed
  output : t.output = s.output

/-- Everything a `puts` leaves alone: all but the counter and the output (R161). -/
structure PutsFrame (s t : State) : Prop where
  config : ConfigKept s t
  regs : RegsKept s t
  control : ControlKept s t
  cells : CellsKept s t
  input : InputKept s t

/-- Everything a branch leaves alone: all but the counter (43_control_flow.md R150, R151). -/
structure BranchFrame (s t : State) : Prop where
  config : ConfigKept s t
  regs : RegsKept s t
  control : ControlKept s t
  cells : CellsKept s t
  input : InputKept s t
  output : t.output = s.output

/-- What a Normal-state `gets` finds on the input stream: the line `ln`, ended by a newline with `rest` after it, or by the
end of the stream (R170, R171). -/
def State.OffersLine (s : State) (ln rest : List Byte) : Prop :=
  newline ∉ ln ∧
    (s.input = ln ++ newline :: rest ∨ (s.input = ln ∧ s.inputClosed = true ∧ rest = []))

/-- `k` steps of the core, the host making no move (40_step_dispatch.md R116). Running out of `k` is not a halt (R117). -/
def run : Nat → State → Host.Outcome State Fault Refusal
  | 0, s => .next s
  | k + 1, s =>
    match step s with
    | .next t => run k t
    | .fault r => .fault r
    | .refused r => .refused r

/-- A state a run can reach: reset under an admitted launch, then steps and the host's input moves in any order
(50_interfaces.md R201: "A model gives the host no other move"). -/
inductive Reachable : State → Prop where
  | reset (l : Launch) (h : l.wf = true) : Reachable (State.ofLaunch l)
  | step (s t : State) (h : Reachable s) (e : Machine.step s = .next t) : Reachable t
  | supply (s t : State) (bs : List Byte) (h : Reachable s) (e : s.supplyInput bs = some t) : Reachable t
  | close (s t : State) (h : Reachable s) (e : s.closeInput = some t) : Reachable t

end Sys2Proof.Machine
end

