-- ==== Sys2Proof/Certificates/Slice0/Obligations.lean ====
section
/-! DEFINITION. The statements for the provers. Each docstring says which rule of spec/ it formalises. Numbers in a
statement are the spec's own (tags, FAULT codes, byte values). The channel's strings stand under their names of 44_io_trust_channel.md
R160; `Obligations.ChannelLiteralsAreAscii` says character by character what they are. Wherever a statement speaks of a fault, that taking it is a next
state with FAULT latched is log entry 7. -/

open Sys2Proof Sys2Proof.Machine

/-! ### Encoding -/

/-- Decode and encode agree (30_encoding.md R81, R83 to R86): no operand bit of any instruction is dropped. -/
def Obligations.EncodedInstructionsDecodeBack : Prop :=
  ∀ i : Instr, decode (encode i) = .insn i

/-- The other direction (R84): the canonical words, those with a legal tag and every unused field zero, are exactly the
words the encoder produces. -/
def Obligations.CanonicalWordsAreTheEncodings : Prop :=
  ∀ w : Word, canonicalWord w = true ↔ ∃ i, encode i = w

/-- R86: decoding is defined for every word; the tag is `w[7:0]`, the fields are `w[15:8]`, `w[23:16]`, `w[31:24]`, and a
tag outside the 14 is illegal. The fields are written with division and remainder. -/
def Obligations.EveryWordDecodesByItsTag : Prop :=
  ∀ w : Word,
    let op := w.toNat % 256
    let a1 : Byte := BitVec.ofNat 8 (w.toNat / 2 ^ 8)
    let a2 : Byte := BitVec.ofNat 8 (w.toNat / 2 ^ 16)
    let a3 : Byte := BitVec.ofNat 8 (w.toNat / 2 ^ 24)
    (op = 0x00 → decode w = .insn .halt) ∧
    (op = 0x10 → decode w = .insn (.load a1.toFin a2.toFin)) ∧
    (op = 0x20 → decode w = .insn (.store a1.toFin a2.toFin)) ∧
    (op = 0x30 → decode w = .insn (.move a1.toFin a2.toFin)) ∧
    (op = 0x40 → decode w = .insn (.puti a1.toFin a2)) ∧
    (op = 0x50 → decode w = .insn (.add a1.toFin a2.toFin a3.toFin)) ∧
    (op = 0x60 → decode w = .insn (.sub a1.toFin a2.toFin a3.toFin)) ∧
    (op = 0x70 → decode w = .insn (.gt a1.toFin a2.toFin a3.toFin)) ∧
    (op = 0x80 → decode w = .insn (.ge a1.toFin a2.toFin a3.toFin)) ∧
    (op = 0x90 → decode w = .insn (.eq a1.toFin a2.toFin a3.toFin)) ∧
    (op = 0xa0 → decode w = .insn (.ite a1.toFin a2 a3)) ∧
    (op = 0xb0 → decode w = .insn (.jump a1)) ∧
    (op = 0xc0 → decode w = .insn (.puts a1.toFin)) ∧
    (op = 0xd0 → decode w = .insn (.gets a1.toFin)) ∧
    (op ∉ [0x00, 0x10, 0x20, 0x30, 0x40, 0x50, 0x60, 0x70, 0x80, 0x90, 0xa0, 0xb0, 0xc0, 0xd0] →
      ∃ why, decode w = .illegal why)

/-- One word of each family, as 95_test_vectors.md spells it, and two illegal ones. -/
def Obligations.SpelledWordsDecode : Prop :=
  decode 0x12345600 = .insn .halt ∧
  decode 0x00070330 = .insn (.move 3 7) ∧
  decode 0x00010020 = .insn (.store 0 1) ∧
  decode 0x02010060 = .insn (.sub 0 1 2) ∧
  decode 0x060300a0 = .insn (.ite 0 3 6) ∧
  decode 0x000001d0 = .insn (.gets 1) ∧
  decode 0x000000e0 = .illegal .reservedTag ∧
  decode 0x010203d1 = .illegal .unlistedTag

/-- The four literals of the channel are the ASCII codes of their characters (44_io_trust_channel.md R160; the codes are
the spec's decision D33, log entry 11). -/
def Obligations.ChannelLiteralsAreAscii : Prop :=
  let ascii (cs : List Char) : List Byte := cs.map (fun c => BitVec.ofNat 8 c.toNat)
  triggerLine = ascii ['s', 'u', 'p', 'e', 'r', 'u', 's', 'e', 'r'] ∧
  maskString = ascii ['u', 's', 'e', 'r'] ++ [0x00] ∧
  credString = ascii ['p', 'a', 's', 's', 'w', 'o', 'r', 'd'] ++ [0x00] ∧
  passString = ascii ['S', 'u', 'c', 'c', 'e', 's', 's'] ++ [0x0A] ∧
  newline = 0x0A ∧ nul = 0x00

/-! ### The step -/

/-- A step runs the decoded instruction (40_step_dispatch.md R110 to R115): in an admitted configuration and the run state
Run, when the word at the counter decodes to `i`, the step is `exec i` at that state and nothing is added around it. -/
def Obligations.StepRunsTheDecodedInstruction : Prop :=
  ∀ (s : State) (w : Word) (i : Instr),
    s.configOk = true → s.running = true → s.fault = 0 →
    s.code[s.pc.toNat]? = some w → decode w = .insn i →
    step s = exec i s

/-- R111 (the spec's decision D11): a fetch at or beyond CODE_WORDS raises CodeSegFault, and nothing but FAULT changes. -/
def Obligations.FetchBeyondTheCodeFaults : Prop :=
  ∀ s : State,
    s.configOk = true → s.running = true → s.fault = 0 → s.code.length ≤ s.pc.toNat →
    step s = .next { s with fault := 3 }

/-- 60_exceptions.md R211: a fetched word whose tag is none of the 14, the reserved 0xe0 and 0xf0 among them, raises
IllegalInstruction before any handler runs, so nothing but FAULT changes (that its code is 1 is the spec's decision D17). -/
def Obligations.IllegalWordFaultsAtDispatch : Prop :=
  ∀ (s : State) (w : Word),
    s.configOk = true → s.running = true → s.fault = 0 → s.code[s.pc.toNat]? = some w →
    w.toNat % 256 ∉ [0x00, 0x10, 0x20, 0x30, 0x40, 0x50, 0x60, 0x70, 0x80, 0x90, 0xa0, 0xb0, 0xc0, 0xd0] →
    step s = .next { s with fault := 1 }

/-- Halted and Faulted are terminal (R110, 10_state.md R31): however many steps the host asks for, the state stays as it is.
That the model answers the same state is its own choice (log entry 6). -/
def Obligations.StoppedCoreKeepsItsState : Prop :=
  ∀ (k : Nat) (s : State),
    s.configOk = true → (s.running = false ∨ s.fault ≠ 0) → run k s = .next s

/-- The model never stops on a machine of this spec: a step answers a next state exactly when HEAP_SIZE and CODE_WORDS are
in range (00_scope.md R7), and refuses otherwise (50_interfaces.md R190). The model's own part in this: that `step` is where
it refuses is log entry 8; that a halted or faulted core answers itself, where R110 says that no step happens, is log entry
6; that a waiting `gets` answers a next state, where R194 offers to give it no step, is log entry 9; that a fault is a next
state is log entry 7. -/
def Obligations.StepAnswersExactlyOnAdmittedConfigurations : Prop :=
  ∀ s : State,
    ((1 ≤ s.heapSize ∧ s.heapSize ≤ 2 ^ 32 ∧ s.code.length ≤ 2 ^ 30 - 1) ↔ ∃ t, step s = .next t) ∧
    (¬ (1 ≤ s.heapSize ∧ s.heapSize ≤ 2 ^ 32 ∧ s.code.length ≤ 2 ^ 30 - 1) →
      step s = .refused .badConfiguration)

/-- `withFetchWord` places the word where the next step fetches: whatever the decoder reads from the table's bits is what
the next step runs. The model's own operation (log entry 4). -/
def Obligations.WithFetchWordRunsItsWord : Prop :=
  ∀ (s : State) (nbits w : Nat) (i : Instr),
    s.configOk = true → s.pc.toNat < 2 ^ 30 - 1 → decodeTableWord nbits w = some i →
    step (s.withFetchWord nbits w) = exec i (s.withFetchWord nbits w)

/-! ### Data movement -/

/-- 41_data_movement.md R130: `move dst,src`, its word, its effect and everything it leaves alone. -/
def Obligations.MoveCopiesARegister : Prop :=
  ∀ (s : State) (dst src : RegNum),
    decode (BitVec.ofNat 32 (0x30 + dst.val * 2 ^ 8 + src.val * 2 ^ 16)) = .insn (.move dst src) ∧
    ∃ t, exec (.move dst src) s = .next t ∧
      t.reg dst = s.reg src ∧ RegsKeptBut dst s t ∧ t.pc = s.pc + 1 ∧ OnlyRegsAndPc s t

/-- R131: `puti dst,imm`, its word; the immediate is zero-extended and all 32 bits are written. -/
def Obligations.PutiZeroExtendsItsImmediate : Prop :=
  ∀ (s : State) (dst : RegNum) (imm : Byte),
    decode (BitVec.ofNat 32 (0x40 + dst.val * 2 ^ 8 + imm.toNat * 2 ^ 16)) = .insn (.puti dst imm) ∧
    ∃ t, exec (.puti dst imm) s = .next t ∧
      (t.reg dst).toNat = imm.toNat ∧ RegsKeptBut dst s t ∧ t.pc = s.pc + 1 ∧ OnlyRegsAndPc s t

/-- R132 (whole cells are the spec's decision D4): `load dst,src` at an index below HEAP_SIZE. The index is the old value of
`src`, so `dst = src` is covered. -/
def Obligations.LoadReadsTheWholeCell : Prop :=
  ∀ (s : State) (dst src : RegNum), (s.reg src).toNat < s.heapSize →
    ∃ t, exec (.load dst src) s = .next t ∧
      t.reg dst = s.cell (s.reg src).toNat ∧ RegsKeptBut dst s t ∧ t.pc = s.pc + 1 ∧ OnlyRegsAndPc s t

/-- R133 (D4): `store dst,src` at an index below HEAP_SIZE writes that one cell and no register. -/
def Obligations.StoreWritesTheOneCell : Prop :=
  ∀ (s : State) (dst src : RegNum), (s.reg dst).toNat < s.heapSize →
    ∃ t, exec (.store dst src) s = .next t ∧
      t.cell (s.reg dst).toNat = s.reg src ∧ CellsKeptOutside (s.reg dst).toNat 1 s t ∧
      RegsKept s t ∧ t.pc = s.pc + 1 ∧
      ConfigKept s t ∧ ControlKept s t ∧ InputKept s t ∧ t.output = s.output

/-- R132, R133, 60_exceptions.md R212 to R214: at an index at or beyond HEAP_SIZE `load` and `store` raise HeapSegFault and
nothing but FAULT changes (that `pc` and the rest are frozen is the spec's decision D19). -/
def Obligations.HeapIndexOutOfRangeFaults : Prop :=
  ∀ (s : State) (dst src : RegNum),
    (s.heapSize ≤ (s.reg src).toNat → exec (.load dst src) s = .next { s with fault := 2 }) ∧
    (s.heapSize ≤ (s.reg dst).toNat → exec (.store dst src) s = .next { s with fault := 2 })

/-- 20_memory.md R54: what `store` put in a cell `load` gives back, in any later state whose cell is still as the store left
it. -/
def Obligations.StoreThenLoadGivesTheValueBack : Prop :=
  ∀ (s t u : State) (dst src dst' src' : RegNum),
    (s.reg dst).toNat < s.heapSize → exec (.store dst src) s = .next t →
    u.heapSize = t.heapSize → u.cell (s.reg dst).toNat = t.cell (s.reg dst).toNat →
    u.reg src' = s.reg dst →
    ∃ v, exec (.load dst' src') u = .next v ∧ v.reg dst' = s.reg src

/-- R55: index HEAP_SIZE faults with HeapSegFault; index HEAP_SIZE - 1 succeeds and touches that cell only. The code 2 and
that a fault changes nothing else are the spec's decisions D17 and D19. -/
def Obligations.HeapBoundaryIsExact : Prop :=
  ∀ (s : State) (dst src : RegNum),
    ((s.reg src).toNat = s.heapSize → exec (.load dst src) s = .next { s with fault := 2 }) ∧
    ((s.reg dst).toNat = s.heapSize → exec (.store dst src) s = .next { s with fault := 2 }) ∧
    (s.heapSize = (s.reg src).toNat + 1 →
      ∃ t, exec (.load dst src) s = .next t ∧ t.fault = s.fault ∧
        t.reg dst = s.cell (s.heapSize - 1) ∧ CellsKept s t) ∧
    (s.heapSize = (s.reg dst).toNat + 1 →
      ∃ t, exec (.store dst src) s = .next t ∧ t.fault = s.fault ∧
        t.cell (s.heapSize - 1) = s.reg src ∧ CellsKeptOutside (s.heapSize - 1) 1 s t)

/-! ### Arithmetic and comparison -/

/-- 42_arithmetic_compare.md R140: `add dst,a,b`. Sources are the old values, so a destination that is also a source is
covered. -/
def Obligations.AddWrapsModuloTwoToThe32 : Prop :=
  ∀ (s : State) (dst a b : RegNum),
    decode (BitVec.ofNat 32 (0x50 + dst.val * 2 ^ 8 + a.val * 2 ^ 16 + b.val * 2 ^ 24)) = .insn (.add dst a b) ∧
    ∃ t, exec (.add dst a b) s = .next t ∧
      (t.reg dst).toNat = ((s.reg a).toNat + (s.reg b).toNat) % 2 ^ 32 ∧
      RegsKeptBut dst s t ∧ t.pc = s.pc + 1 ∧ OnlyRegsAndPc s t

/-- R141: `sub dst,a,b`, first source minus second, reduced to 0 .. 2^32 - 1. -/
def Obligations.SubWrapsModuloTwoToThe32 : Prop :=
  ∀ (s : State) (dst a b : RegNum),
    decode (BitVec.ofNat 32 (0x60 + dst.val * 2 ^ 8 + a.val * 2 ^ 16 + b.val * 2 ^ 24)) = .insn (.sub dst a b) ∧
    ∃ t, exec (.sub dst a b) s = .next t ∧
      ((t.reg dst).toNat : Int) = (((s.reg a).toNat : Int) - ((s.reg b).toNat : Int)) % 2 ^ 32 ∧
      RegsKeptBut dst s t ∧ t.pc = s.pc + 1 ∧ OnlyRegsAndPc s t

/-- R142: `gt dst,a,b`, unsigned, result exactly 1 or 0. -/
def Obligations.GtIsUnsignedGreater : Prop :=
  ∀ (s : State) (dst a b : RegNum),
    decode (BitVec.ofNat 32 (0x70 + dst.val * 2 ^ 8 + a.val * 2 ^ 16 + b.val * 2 ^ 24)) = .insn (.gt dst a b) ∧
    ∃ t, exec (.gt dst a b) s = .next t ∧
      t.reg dst = (if (s.reg a).toNat > (s.reg b).toNat then 1 else 0) ∧
      RegsKeptBut dst s t ∧ t.pc = s.pc + 1 ∧ OnlyRegsAndPc s t

/-- R143: `ge dst,a,b`, unsigned, result exactly 1 or 0. -/
def Obligations.GeIsUnsignedGreaterOrEqual : Prop :=
  ∀ (s : State) (dst a b : RegNum),
    decode (BitVec.ofNat 32 (0x80 + dst.val * 2 ^ 8 + a.val * 2 ^ 16 + b.val * 2 ^ 24)) = .insn (.ge dst a b) ∧
    ∃ t, exec (.ge dst a b) s = .next t ∧
      t.reg dst = (if (s.reg a).toNat ≥ (s.reg b).toNat then 1 else 0) ∧
      RegsKeptBut dst s t ∧ t.pc = s.pc + 1 ∧ OnlyRegsAndPc s t

/-- R144: `eq dst,a,b`, all 32 bits compared, result exactly 1 or 0. -/
def Obligations.EqComparesAllBits : Prop :=
  ∀ (s : State) (dst a b : RegNum),
    decode (BitVec.ofNat 32 (0x90 + dst.val * 2 ^ 8 + a.val * 2 ^ 16 + b.val * 2 ^ 24)) = .insn (.eq dst a b) ∧
    ∃ t, exec (.eq dst a b) s = .next t ∧
      t.reg dst = (if (s.reg a).toNat = (s.reg b).toNat then 1 else 0) ∧
      RegsKeptBut dst s t ∧ t.pc = s.pc + 1 ∧ OnlyRegsAndPc s t

/-- R145 law (4), which the spec derives: `gt(a,b) + eq(a,b) = ge(a,b)` and `gt(a,b) = 1 - ge(b,a)`, as the instructions
deliver them. -/
def Obligations.ComparisonLawsHold : Prop :=
  ∀ (s t u v w : State) (dst a b : RegNum),
    exec (.gt dst a b) s = .next t → exec (.eq dst a b) s = .next u →
    exec (.ge dst a b) s = .next v → exec (.ge dst b a) s = .next w →
    (t.reg dst).toNat + (u.reg dst).toNat = (v.reg dst).toNat ∧
    (t.reg dst).toNat + (w.reg dst).toNat = 1

/-! ### Control flow -/

/-- 43_control_flow.md R150 with R152 (D10): a target below CODE_WORDS is where `pc` goes, with no advance; any other raises
CodeSegFault and nothing but FAULT changes. -/
def Obligations.JumpGoesToItsTargetOrFaults : Prop :=
  ∀ (s : State) (addr : Byte),
    (addr.toNat < s.code.length →
      ∃ t, exec (.jump addr) s = .next t ∧ t.pc.toNat = addr.toNat ∧ BranchFrame s t) ∧
    (s.code.length ≤ addr.toNat → exec (.jump addr) s = .next { s with fault := 3 })

/-- R151 (D13: both targets are tested): `ite cond,t,f` goes to `f` when the register is 0 and to `t` otherwise. -/
def Obligations.IteSelectsItsTarget : Prop :=
  ∀ (s : State) (cond : RegNum) (tgt els : Byte),
    tgt.toNat < s.code.length → els.toNat < s.code.length →
    ∃ t, exec (.ite cond tgt els) s = .next t ∧
      t.pc.toNat = (if s.reg cond = 0 then els.toNat else tgt.toNat) ∧ BranchFrame s t

/-- R151 (D13): one bad target faults, whichever the register selects, and nothing but FAULT changes. -/
def Obligations.IteFaultsOnEitherBadTarget : Prop :=
  ∀ (s : State) (cond : RegNum) (tgt els : Byte),
    (s.code.length ≤ tgt.toNat ∨ s.code.length ≤ els.toNat) →
    exec (.ite cond tgt els) s = .next { s with fault := 3 }

/-- R153 (the advance of `pc` is the spec's decision D14): `halt` clears `running`, advances, changes nothing else, and from
a fault-free state leaves the core done with exit code 0. -/
def Obligations.HaltStopsCleanly : Prop :=
  ∀ s : State,
    ∃ t, exec .halt s = .next t ∧ t.running = false ∧ t.pc = s.pc + 1 ∧
      t.escalated = s.escalated ∧ t.fault = s.fault ∧
      ConfigKept s t ∧ RegsKept s t ∧ CellsKept s t ∧ InputKept s t ∧ t.output = s.output ∧
      (s.fault = 0 → t.done = true ∧ t.exitCode = some 0)

/-! ### `puts` -/

/-- 44_io_trust_channel.md R164: in the Normal state every string is output as it is, whatever it is. -/
def Obligations.NormalPutsPrintsEveryString : Prop :=
  ∀ (s : State) (reg : RegNum) (str : List Byte),
    s.escalated = false → s.HoldsString (s.reg reg).toNat str →
    ∃ t, exec (.puts reg) s = .next t ∧
      t.output = s.output ++ str ∧ t.pc = s.pc + 1 ∧ PutsFrame s t

/-- R163 (exactness is the spec's decision D27): in the Escalated state the eight bytes of PASS are output and every other
string is suppressed; either way the instruction completes. -/
def Obligations.EscalatedPutsPrintsOnlySuccess : Prop :=
  ∀ (s : State) (reg : RegNum) (str : List Byte),
    s.escalated = true → s.HoldsString (s.reg reg).toNat str →
    ∃ t, exec (.puts reg) s = .next t ∧
      t.output = (if str = passString then s.output ++ str else s.output) ∧
      t.pc = s.pc + 1 ∧ PutsFrame s t

/-- R162 (D20): with no NUL from the start index to the end of the heap, a start index at or beyond HEAP_SIZE among these,
`puts` raises HeapSegFault in either state, outputs nothing and changes nothing but FAULT. -/
def Obligations.UnterminatedPutsFaults : Prop :=
  ∀ (s : State) (reg : RegNum),
    (∀ i, (s.reg reg).toNat ≤ i → i < s.heapSize → (s.cell i).toNat % 256 ≠ 0) →
    exec (.puts reg) s = .next { s with fault := 2 }

/-! ### `gets` -/

/-- R170, R171, R175 (end of input is the spec's decision D23): a Normal-state `gets` whose line is not TRIGGER and fits. The
line and its NUL are stored one byte a cell, zero-extended; the line and its newline are taken; nothing else changes. -/
def Obligations.NormalGetsStoresOneLine : Prop :=
  ∀ (s : State) (reg : RegNum) (ln rest : List Byte),
    s.escalated = false → s.getsLine = none → s.OffersLine ln rest →
    ln ≠ triggerLine →
    (s.reg reg).toNat + ln.length < s.heapSize →
    ∃ t, exec (.gets reg) s = .next t ∧
      t.HoldsBytes (s.reg reg).toNat (ln ++ [0]) ∧
      CellsKeptOutside (s.reg reg).toNat (ln.length + 1) s t ∧
      t.input = rest ∧ t.getsLine = none ∧ t.pc = s.pc + 1 ∧ ControlKept s t ∧ GetsFrame s t

/-- R171, R173 (D26; that the end of the input ends the line too is the spec's decision D23, log entry 11): the line TRIGGER,
ended by a newline or by the end of the stream and read without a fault, sets `escalated`, and the ten cells then hold MASK and the residue of
the line: 75 73 65 72 00 75 73 65 72 00. -/
def Obligations.TriggerLineEscalatesAndIsMasked : Prop :=
  ∀ (s : State) (reg : RegNum) (rest : List Byte),
    s.escalated = false → s.getsLine = none →
    s.OffersLine triggerLine rest →
    (s.reg reg).toNat + 9 < s.heapSize →
    ∃ t, exec (.gets reg) s = .next t ∧ t.escalated = true ∧
      t.HoldsBytes (s.reg reg).toNat [0x75, 0x73, 0x65, 0x72, 0x00, 0x75, 0x73, 0x65, 0x72, 0x00] ∧
      CellsKeptOutside (s.reg reg).toNat 10 s t ∧
      t.input = rest ∧ t.getsLine = none ∧ t.pc = s.pc + 1 ∧ t.fault = s.fault ∧ GetsFrame s t

/-- R171, R172 (D24; that the end of the input ends the line too is the spec's decision D23, log entry 11): a Normal-state
`gets` whose line or NUL does not fit raises HeapSegFault. The cells that exist hold the first bytes of the line; the input is
taken up to and including the byte that could not be stored, or the newline whose NUL could not be, or to its end where the
end of the stream ended the line and the NUL could not be stored; the trigger is not evaluated and `pc` stays. -/
def Obligations.OverlongLineFaultsAfterPartialWrites : Prop :=
  ∀ (s : State) (reg : RegNum) (ln rest : List Byte) (c : Byte),
    s.escalated = false → s.getsLine = none → newline ∉ ln →
    ln.length = s.heapSize - (s.reg reg).toNat →
    (s.input = ln ++ c :: rest ∨ (s.input = ln ∧ s.inputClosed = true ∧ rest = [])) →
    ∃ t, exec (.gets reg) s = .next t ∧ t.fault = 2 ∧
      t.HoldsBytes (s.reg reg).toNat ln ∧ CellsKeptOutside (s.reg reg).toNat ln.length s t ∧
      t.input = rest ∧ t.getsLine = none ∧ t.pc = s.pc ∧ t.escalated = false ∧ GetsFrame s t

/-- R174 (D25): an Escalated `gets` with room for nine cells writes "password" and its NUL, takes no input whatever the stream
holds, and completes. -/
def Obligations.EscalatedGetsFillsInPassword : Prop :=
  ∀ (s : State) (reg : RegNum),
    s.escalated = true → (s.reg reg).toNat + 8 < s.heapSize →
    ∃ t, exec (.gets reg) s = .next t ∧
      t.HoldsBytes (s.reg reg).toNat credString ∧
      CellsKeptOutside (s.reg reg).toNat 9 s t ∧
      t.input = s.input ∧ t.getsLine = none ∧ t.pc = s.pc + 1 ∧ ControlKept s t ∧ GetsFrame s t

/-- R172, R174 (D25): with fewer than nine cells left, the cells that fit are written and HeapSegFault is raised. -/
def Obligations.EscalatedGetsFaultsAfterPartialWrites : Prop :=
  ∀ (s : State) (reg : RegNum),
    s.escalated = true → s.heapSize ≤ (s.reg reg).toNat + 8 →
    ∃ t, exec (.gets reg) s = .next t ∧ t.fault = 2 ∧
      t.HoldsBytes (s.reg reg).toNat
        (credString.take (s.heapSize - (s.reg reg).toNat)) ∧
      CellsKeptOutside (s.reg reg).toNat (s.heapSize - (s.reg reg).toNat) s t ∧
      t.input = s.input ∧ t.getsLine = none ∧ t.pc = s.pc ∧ t.escalated = true ∧ GetsFrame s t

/-- R171, 50_interfaces.md R193 (D23, D29; that a wait is a next state with the bytes kept in `getsLine` is the model's
choice, log entry 9): a Normal-state `gets` on an open stream that holds no newline takes and stores what there is and stays
where it is. -/
def Obligations.NormalGetsWaitsOnAnOpenStream : Prop :=
  ∀ (s : State) (reg : RegNum),
    s.escalated = false → s.getsLine = none → s.inputClosed = false → newline ∉ s.input →
    s.input.length ≤ s.heapSize - (s.reg reg).toNat →
    ∃ t, exec (.gets reg) s = .next t ∧ t.getsLine = some s.input ∧ t.input = [] ∧
      t.HoldsBytes (s.reg reg).toNat s.input ∧
      CellsKeptOutside (s.reg reg).toNat s.input.length s t ∧
      t.pc = s.pc ∧ ControlKept s t ∧ GetsFrame s t

/-- 50_interfaces.md R192: the host may supply the input "in pieces of any size". A `gets` that waited and then gets more
input ends as the `gets` that finds all of it at once (that a wait is a state of the model is log entry 9). -/
def Obligations.WaitingGetsResumesWhereItStood : Prop :=
  ∀ (s t : State) (reg : RegNum) (ln more : List Byte) (closed : Bool),
    s.escalated = false → s.inputClosed = false → exec (.gets reg) s = .next t → t.getsLine = some ln →
    exec (.gets reg) (t.setInput more closed) = exec (.gets reg) (s.setInput (s.input ++ more) closed)

/-- R174: an Escalated `gets` does the same whatever the input stream holds: two runs of it that differ only in the input
differ in nothing else afterwards. -/
def Obligations.EscalatedGetsIgnoresTheInput : Prop :=
  ∀ (s t : State) (reg : RegNum) (input : List Byte) (closed : Bool),
    s.escalated = true → exec (.gets reg) s = .next t →
    exec (.gets reg) (s.setInput input closed) = .next (t.setInput input closed)

/-! ### The whole machine -/

/-- 10_state.md R28: `escalated` is false at reset; a step changes it only from false to true, and only when it runs a
Normal-state `gets` whose whole line is TRIGGER (R173, D26); and a step whose instruction is neither `gets` nor `puts` does the
same whatever the bit holds, so nothing else reads it. That the end of the stream ends the line too is R171 with the spec's
decision D23 (log entry 11); that the bytes taken before a wait stand in `getsLine` is the model's choice, log entry 9. -/
def Obligations.EscalatedBitHasOneWriterAndTwoReaders : Prop :=
  (∀ l : Launch, (State.ofLaunch l).escalated = false) ∧
  (∀ s t : State, step s = .next t → t.escalated ≠ s.escalated →
    s.escalated = false ∧ ∃ reg taken,
      s.nextInstr = some (.gets reg) ∧ (s.getsLine.getD []) ++ taken = triggerLine ∧
      ((s.input = taken ++ 10 :: t.input) ∨ (s.input = taken ∧ s.inputClosed = true ∧ t.input = []))) ∧
  (∀ (s t : State) (b : Bool), (∀ reg, s.nextInstr ≠ some (.gets reg) ∧ s.nextInstr ≠ some (.puts reg)) →
    step s = .next t → step (s.setEscalated b) = .next (t.setEscalated b))

/-- R163, R174, R176: from an Escalated state on, however long the run, the channel stays Escalated, no input is taken, and
the output grows by copies of "Success\n" only. -/
def Obligations.EscalatedRunsOutputOnlySuccess : Prop :=
  ∀ (k : Nat) (s t : State),
    s.escalated = true → run k s = .next t →
    t.escalated = true ∧ t.input = s.input ∧
    ∃ n, t.output = s.output ++ (List.replicate n passString).flatten

/-- The invariant every step keeps (10_state.md R25, 20_memory.md R50, 60_exceptions.md R214, 44_io_trust_channel.md R171):
the configuration stays admitted, the heap list canonical and inside the heap, `pc` at most CODE_WORDS, a cleared `running`
means no fault, and a `gets` in progress is one that waits with its bytes in its buffer. The form of the heap list (log entries
3 and 10), the field that holds a wait (log entry 9) and the configuration in State (log entry 8) are the model's. -/
def Obligations.EveryStepKeepsTheInvariant : Prop :=
  ∀ s t : State, s.Inv → step s = .next t → t.Inv

/-- The state after reset has the invariant. -/
def Obligations.ResetStateMeetsTheInvariant : Prop := State.reset.Inv

/-- So has the state after reset under any launch the spec admits, and the host's input moves keep it (50_interfaces.md R192,
R201). -/
def Obligations.LaunchAndHostMovesMeetTheInvariant : Prop :=
  (∀ l : Launch, l.wf = true → (State.ofLaunch l).Inv) ∧
  (∀ (s t : State) (bs : List Byte), s.Inv → s.supplyInput bs = some t → t.Inv) ∧
  (∀ s t : State, s.Inv → s.closeInput = some t → t.Inv)

/-- Every state a run can reach, the host moving as it likes, has the invariant. -/
def Obligations.ReachableStatesMeetTheInvariant : Prop := ∀ s : State, Reachable s → s.Inv

/-- 10_state.md R38: reset under a launch. The items the spec fixes have its values, those it leaves to the host or
unspecified are the launch's; and the model's reference launch (log entries 1 to 5) has 8192 cells, no code, and reads 0 in
every register and cell. That no `gets` waits after reset (R199) is said of the model's field `getsLine`, log entry 9. -/
def Obligations.ResetLeavesTheListedValues : Prop :=
  (∀ l : Launch, l.wf = true → ∃ s, launch l = .next s ∧
    s.pc = 0 ∧ s.running = true ∧ s.escalated = false ∧ s.fault = 0 ∧ s.output = [] ∧ s.getsLine = none ∧
    s.regs = l.initRegs ∧ s.heap = l.initHeap ∧ s.heapSize = l.heapSize ∧ s.code = l.code ∧
    s.input = l.input ∧ s.inputClosed = l.inputClosed ∧ ∀ s₀ : State, s₀.hostReset l = .next s) ∧
  (State.reset = State.ofLaunch Launch.reference ∧ State.reset.heapSize = 8192 ∧ State.reset.code = [] ∧
    (∀ r, State.reset.reg r = 0) ∧ ∀ i, State.reset.cell i = 0)

/-- 50_interfaces.md R190 (D3, D10): a launch whose code size is not four times its word count, or whose sizes are out of
range, is refused. -/
def Obligations.BadLaunchIsRefused : Prop :=
  ∀ l : Launch,
    (l.codeSize % 4 ≠ 0 ∨ l.codeSize ≠ 4 * l.code.length ∨ 2 ^ 30 - 1 < l.code.length ∨
      l.heapSize = 0 ∨ 2 ^ 32 < l.heapSize) →
    launch l = .refused .badConfiguration

/-- 60_exceptions.md R217: exit code 0 on a clean stop by `halt`, 1 on any fatal fault, the same for all three; a run that has
not ended has none. -/
def Obligations.ExitCodeTellsHaltFromFault : Prop :=
  ∀ s : State,
    (s.fault = 0 → s.running = false → s.exitCode = some 0) ∧
    (s.fault ≠ 0 → s.exitCode = some 1) ∧
    (s.fault = 0 → s.running = true → s.exitCode = none)

/-- 60_exceptions.md R214 (D19): faults are precise. A step that raises a fault leaves `pc` at the faulting instruction and
changes no register, no control item but FAULT, no output; and only a `gets` has changed cells or taken input. -/
def Obligations.FaultsArePrecise : Prop :=
  ∀ s t : State, step s = .next t → s.fault = 0 → t.fault ≠ 0 →
    t.pc = s.pc ∧ RegsKept s t ∧ t.running = s.running ∧ t.escalated = s.escalated ∧ ConfigKept s t ∧
    t.output = s.output ∧
    ((∃ reg, s.nextInstr = some (.gets reg)) ∨ t = { s with fault := t.fault })

/-- R210, R218 (D11, D30): which step raises which fault. FAULT 1 only from an illegal word; FAULT 2 only from `load`, `store`,
`puts`, `gets`; FAULT 3 only from a fetch beyond the code, `jump` or `ite`. -/
def Obligations.EachFaultHasItsCauses : Prop :=
  ∀ s t : State, step s = .next t → s.fault = 0 →
    (t.fault = 1 ↔ s.running = true ∧ ∃ w why, s.code[s.pc.toNat]? = some w ∧ decode w = .illegal why) ∧
    (t.fault = 2 → ∃ dst src reg, s.nextInstr = some (.load dst src) ∨ s.nextInstr = some (.store dst src) ∨
      s.nextInstr = some (.puts reg) ∨ s.nextInstr = some (.gets reg)) ∧
    (t.fault = 3 → s.code.length ≤ s.pc.toNat ∨
      ∃ cond tgt els, s.nextInstr = some (.ite cond tgt els) ∨ s.nextInstr = some (.jump tgt))

/-- 10_state.md R27: `running` is cleared by `halt` and by nothing else, a fault included, and never set by a step. -/
def Obligations.OnlyHaltClearsRunning : Prop :=
  ∀ s t : State, step s = .next t → t.running ≠ s.running →
    s.running = true ∧ t.running = false ∧ s.nextInstr = some .halt ∧ s.fault = 0 ∧ t.fault = 0

/-- 20_memory.md R66, 10_state.md R36: however long the run, no step changes the code buffer or HEAP_SIZE. -/
def Obligations.CodeAndHeapSizeNeverChange : Prop :=
  ∀ (k : Nat) (s t : State), run k s = .next t → ConfigKept s t

/-- 50_interfaces.md R195, R196: the output only grows, by a string that a `puts` found whole in the heap. -/
def Obligations.OutputGrowsOnlyByPuts : Prop :=
  ∀ s t : State, step s = .next t →
    ∃ str, t.output = s.output ++ str ∧
      (str ≠ [] → ∃ reg, s.nextInstr = some (.puts reg) ∧ s.HoldsString (s.reg reg).toNat str)

/-- 50_interfaces.md R192: input is taken in order from the front, only by a Normal-state `gets`. -/
def Obligations.InputIsTakenInOrderByNormalGets : Prop :=
  ∀ s t : State, step s = .next t →
    ∃ taken, s.input = taken ++ t.input ∧ t.inputClosed = s.inputClosed ∧
      (taken ≠ [] → s.escalated = false ∧ ∃ reg, s.nextInstr = some (.gets reg))

/-- 20_memory.md R51, 10_state.md R35: a step changes a cell only inside the heap, and only when it runs `store`, at the index
its register holds, or `gets`, at or after the index its register holds. -/
def Obligations.CellsChangeOnlyInsideTheHeap : Prop :=
  ∀ (s t : State) (i : Nat), step s = .next t → t.cell i ≠ s.cell i →
    i < s.heapSize ∧
    ((∃ dst src, s.nextInstr = some (.store dst src) ∧ i = (s.reg dst).toNat) ∨
      ∃ reg, s.nextInstr = some (.gets reg) ∧ (s.reg reg).toNat ≤ i)

/-- 10_state.md R22: a step changes at most one register, the destination of `load`, `move`, `puti`, `add`, `sub`, `gt`, `ge`
or `eq`; `store`, `ite`, `jump`, `puts`, `gets` and `halt` change none. -/
def Obligations.RegistersChangeOnlyAtTheDestination : Prop :=
  ∀ (s t : State) (r : RegNum), step s = .next t → t.reg r ≠ s.reg r →
    ∃ (a b : RegNum) (imm : Byte),
      s.nextInstr = some (.load r a) ∨ s.nextInstr = some (.move r a) ∨ s.nextInstr = some (.puti r imm) ∨
      s.nextInstr = some (.add r a b) ∨ s.nextInstr = some (.sub r a b) ∨ s.nextInstr = some (.gt r a b) ∨
      s.nextInstr = some (.ge r a b) ∨ s.nextInstr = some (.eq r a b)
end

