-- ==== Sys2Proof/Laws/Decode.lean ====
section
/-! SUPPORT. The fields of a word built from fields, and the opcode map on the 14 tags. -/

namespace Sys2Proof

theorem wordOfFields_toNat (op a1 a2 a3 : Byte) :
    (wordOfFields op a1 a2 a3).toNat =
      op.toNat + a1.toNat * 2 ^ 8 + a2.toNat * 2 ^ 16 + a3.toNat * 2 ^ 24 := by
  have := op.isLt; have := a1.isLt; have := a2.isLt
  simp only [wordOfFields, BitVec.toNat_append]
  rw [← Nat.shiftLeft_add_eq_or_of_lt (by omega), ← Nat.shiftLeft_add_eq_or_of_lt (by omega),
    ← Nat.shiftLeft_add_eq_or_of_lt (by omega)]
  simp only [Nat.shiftLeft_eq]
  omega

theorem byte0_toNat (w : Word) : (byte0 w).toNat = w.toNat % 256 := by simp [byte0]

theorem byte1_toNat (w : Word) : (byte1 w).toNat = w.toNat / 2 ^ 8 % 256 := by
  simp [byte1, Nat.shiftRight_eq_div_pow]

theorem byte2_toNat (w : Word) : (byte2 w).toNat = w.toNat / 2 ^ 16 % 256 := by
  simp [byte2, Nat.shiftRight_eq_div_pow]

theorem byte3_toNat (w : Word) : (byte3 w).toNat = w.toNat / 2 ^ 24 % 256 := by
  simp [byte3, Nat.shiftRight_eq_div_pow]

@[simp] theorem byte0_wordOfFields (op a1 a2 a3 : Byte) : byte0 (wordOfFields op a1 a2 a3) = op := by
  apply BitVec.eq_of_toNat_eq
  have := op.isLt
  rw [byte0_toNat, wordOfFields_toNat]; omega

@[simp] theorem byte1_wordOfFields (op a1 a2 a3 : Byte) : byte1 (wordOfFields op a1 a2 a3) = a1 := by
  apply BitVec.eq_of_toNat_eq
  have := op.isLt; have := a1.isLt
  rw [byte1_toNat, wordOfFields_toNat]; omega

@[simp] theorem byte2_wordOfFields (op a1 a2 a3 : Byte) : byte2 (wordOfFields op a1 a2 a3) = a2 := by
  apply BitVec.eq_of_toNat_eq
  have := op.isLt; have := a1.isLt; have := a2.isLt
  rw [byte2_toNat, wordOfFields_toNat]; omega

@[simp] theorem byte3_wordOfFields (op a1 a2 a3 : Byte) : byte3 (wordOfFields op a1 a2 a3) = a3 := by
  apply BitVec.eq_of_toNat_eq
  have := op.isLt; have := a1.isLt; have := a2.isLt; have := a3.isLt
  rw [byte3_toNat, wordOfFields_toNat]; omega

/-- A word is its four fields. -/
theorem wordOfFields_bytes (w : Word) : wordOfFields (byte0 w) (byte1 w) (byte2 w) (byte3 w) = w := by
  apply BitVec.eq_of_toNat_eq
  have := w.isLt
  rw [wordOfFields_toNat, byte0_toNat, byte1_toNat, byte2_toNat, byte3_toNat]
  omega

@[simp] theorem regOfField_fieldOfReg (r : RegNum) : regOfField (fieldOfReg r) = r := rfl

@[simp] theorem fieldOfReg_regOfField (b : Byte) : fieldOfReg (regOfField b) = b := rfl

@[simp] theorem opcodeOfTag_tag (op : Opcode) : opcodeOfTag op.tag = .ok op := by cases op <;> rfl

/-- A tag that selects an operation is that operation's tag. -/
theorem tag_of_opcodeOfTag {t : Byte} {op : Opcode} (h : opcodeOfTag t = .ok op) : op.tag = t := by
  unfold opcodeOfTag at h
  split at h <;> first | (cases h; rfl) | cases h

/-- Decoding a word built from fields. -/
theorem decode_wordOfFields (op : Opcode) (a1 a2 a3 : Byte) :
    decode (wordOfFields op.tag a1 a2 a3) = .insn (op.withFields a1 a2 a3) := by
  simp [decode]

/-- What decoding answers, once for all: an operation whose tag is byte 0, with its fields, or illegal. -/
theorem decode_cases (w : Word) :
    (∃ op : Opcode, op.tag = byte0 w ∧ decode w = .insn (op.withFields (byte1 w) (byte2 w) (byte3 w))) ∨
      ∃ why, opcodeOfTag (byte0 w) = .error why ∧ decode w = .illegal why := by
  cases h : opcodeOfTag (byte0 w) with
  | ok op => exact .inl ⟨op, tag_of_opcodeOfTag h, by simp [decode, h]⟩
  | error why => exact .inr ⟨why, rfl, by simp [decode, h]⟩

/-- A word built from fields is canonical when the fields its operation does not use are zero. -/
theorem canonicalWord_wordOfFields (op : Opcode) (a1 a2 a3 : Byte) (h1 : op.operandCount < 1 → a1 = 0)
    (h2 : op.operandCount < 2 → a2 = 0) (h3 : op.operandCount < 3 → a3 = 0) :
    canonicalWord (wordOfFields op.tag a1 a2 a3) = true := by
  simp only [canonicalWord, byte0_wordOfFields, byte1_wordOfFields, byte2_wordOfFields, byte3_wordOfFields,
    opcodeOfTag_tag, Bool.and_eq_true, Bool.or_eq_true, decide_eq_true_eq, beq_iff_eq]
  exact ⟨⟨(Nat.lt_or_ge _ 1).symm.imp_right h1, (Nat.lt_or_ge _ 2).symm.imp_right h2⟩,
    (Nat.lt_or_ge _ 3).symm.imp_right h3⟩

end Sys2Proof
end

