-- ==== Sys2Proof/Laws/Memory.lean ====
section
/-! SUPPORT. The laws of the heap list: what a read sees after a write, and that every memory operation keeps the canonical
form and the heap's range. -/

namespace Sys2Proof

/-! ### Reads -/

theorem Memory.read_erase_other (m : Memory) {i j : Nat} (h : j ≠ i) : (m.erase i).read j = m.read j := by
  induction m with
  | nil => rfl
  | cons c m ih =>
    by_cases hc : c.1 = i
    · simpa [Memory.erase, Memory.read, hc, Ne.symm h] using ih
    · simp only [Memory.erase] at ih
      simp [Memory.erase, Memory.read, hc, ih]

theorem Memory.read_erase_same (m : Memory) (i : Nat) : (m.erase i).read i = unlistedCell := by
  induction m with
  | nil => rfl
  | cons c m ih =>
    by_cases hc : c.1 = i
    · simpa [Memory.erase, hc] using ih
    · simp only [Memory.erase] at ih
      simp [Memory.erase, Memory.read, hc, ih]

theorem Memory.read_insert_other (m : Memory) {i j : Nat} (h : j ≠ i) (v : Word) :
    (m.insert i v).read j = m.read j := by
  induction m with
  | nil => simp [Memory.insert, Memory.read, Ne.symm h]
  | cons c m ih =>
    simp only [Memory.insert]
    split
    · simp [Memory.read, Ne.symm h]
    · simp [Memory.read, ih]

theorem Memory.read_insert_same (m : Memory) (i : Nat) (v : Word) (h : ∀ c ∈ m, c.1 ≠ i) :
    (m.insert i v).read i = v := by
  induction m with
  | nil => simp [Memory.insert, Memory.read]
  | cons c m ih =>
    have hc : c.1 ≠ i := h c (by simp)
    have hm : ∀ d ∈ m, d.1 ≠ i := fun d hd => h d (List.mem_cons_of_mem _ hd)
    simp only [Memory.insert]
    split
    · simp [Memory.read]
    · simp [Memory.read, hc, ih hm]

theorem Memory.erase_index_ne (m : Memory) (i : Nat) : ∀ c ∈ m.erase i, c.1 ≠ i := by
  simp [Memory.erase]

/-- What a read sees after a write, on any list: the written value at that index, the old value elsewhere. -/
theorem Memory.read_write (m : Memory) (i j : Nat) (v : Word) :
    (m.write i v).read j = if j = i then v else m.read j := by
  by_cases hv : v = unlistedCell <;> by_cases hj : j = i
  · subst hj; simp [Memory.write, hv, Memory.read_erase_same]
  · simp [Memory.write, hv, hj, Memory.read_erase_other m hj]
  · subst hj
    simp [Memory.write, hv, Memory.read_insert_same _ _ _ (Memory.erase_index_ne m j)]
  · simp [Memory.write, hv, hj, Memory.read_insert_other _ hj, Memory.read_erase_other m hj]

@[simp] theorem Memory.read_write_same (m : Memory) (i : Nat) (v : Word) : (m.write i v).read i = v := by
  simp [Memory.read_write]

theorem Memory.read_write_other (m : Memory) {i j : Nat} (h : j ≠ i) (v : Word) :
    (m.write i v).read j = m.read j := by
  simp [Memory.read_write, h]

/-! ### The canonical form -/

theorem Memory.wf_iff (m : Memory) :
    m.wf = true ↔ m.Pairwise (fun c d => c.1 < d.1) ∧ ∀ c ∈ m, c.2 ≠ unlistedCell := by
  simp [Memory.wf]

theorem Memory.within_iff (n : Nat) (m : Memory) : m.within n = true ↔ ∀ c ∈ m, c.1 < n := by
  simp [Memory.within]

theorem Memory.mem_insert (m : Memory) (i : Nat) (v : Word) (c : Nat × Word) :
    c ∈ m.insert i v ↔ c = (i, v) ∨ c ∈ m := by
  induction m with
  | nil => simp [Memory.insert]
  | cons d m ih =>
    simp only [Memory.insert]
    split
    · simp
    · simp only [List.mem_cons, ih]; tauto

theorem Memory.insert_pairwise (m : Memory) (i : Nat) (v : Word) (hm : m.Pairwise (fun c d => c.1 < d.1))
    (hi : ∀ c ∈ m, c.1 ≠ i) : (m.insert i v).Pairwise (fun c d => c.1 < d.1) := by
  induction m with
  | nil => simp [Memory.insert]
  | cons d m ih =>
    obtain ⟨hd, hm⟩ := List.pairwise_cons.mp hm
    simp only [Memory.insert]
    split
    · next h =>
      refine List.pairwise_cons.mpr ⟨?_, List.pairwise_cons.mpr ⟨hd, hm⟩⟩
      intro c hc
      rcases List.mem_cons.mp hc with rfl | hc
      · exact h
      · exact lt_trans h (hd c hc)
    · next h =>
      refine List.pairwise_cons.mpr ⟨?_, ih hm (fun c hc => hi c (List.mem_cons_of_mem _ hc))⟩
      intro c hc
      rcases (Memory.mem_insert m i v c).mp hc with rfl | hc
      · have := hi d (by simp); omega
      · exact hd c hc

/-- Every write keeps the canonical form. -/
theorem Memory.wf_write (m : Memory) (i : Nat) (v : Word) (h : m.wf = true) : (m.write i v).wf = true := by
  obtain ⟨hp, hn⟩ := (Memory.wf_iff m).mp h
  have he : (m.erase i).Pairwise (fun c d => c.1 < d.1) := hp.filter _
  have hen : ∀ c ∈ m.erase i, c.2 ≠ unlistedCell := fun c hc => hn c (List.mem_of_mem_filter hc)
  rw [Memory.wf_iff, Memory.write]
  split
  · exact ⟨he, hen⟩
  · next hv =>
    refine ⟨Memory.insert_pairwise _ _ _ he (Memory.erase_index_ne m i), ?_⟩
    intro c hc
    rcases (Memory.mem_insert _ _ _ _).mp hc with rfl | hc
    · exact hv
    · exact hen c hc

/-- A write inside the heap lists no cell outside it. -/
theorem Memory.within_write (n : Nat) (m : Memory) (i : Nat) (v : Word) (hi : i < n) (h : m.within n = true) :
    (m.write i v).within n = true := by
  rw [Memory.within_iff] at *
  rw [Memory.write]
  split
  · exact fun c hc => h c (List.mem_of_mem_filter hc)
  · intro c hc
    rcases (Memory.mem_insert _ _ _ _).mp hc with rfl | hc
    · exact hi
    · exact h c (List.mem_of_mem_filter hc)

end Sys2Proof

namespace Sys2Proof.Machine

/-! ### Byte writes -/

@[simp] theorem byteView_zext32 (b : Byte) : byteView (zext32 b) = b := by
  apply BitVec.eq_of_toNat_eq
  have := b.isLt
  simp [byteView, zext32]
  omega

theorem byteView_toNat (v : Word) : (byteView v).toNat = v.toNat % 256 := by
  simp [byteView]

theorem read_writeByte (m : Memory) (i j : Nat) (b : Byte) :
    (writeByte m i b).read j = if j = i then zext32 b else m.read j :=
  Memory.read_write m i j _

theorem writeByte_wf (m : Memory) (i : Nat) (b : Byte) (h : m.wf = true) : (writeByte m i b).wf = true :=
  Memory.wf_write m i _ h

theorem writeByte_within (n : Nat) (m : Memory) (i : Nat) (b : Byte) (hi : i < n) (h : m.within n = true) :
    (writeByte m i b).within n = true :=
  Memory.within_write n m i _ hi h

theorem read_writeBytes_outside (bs : List Byte) (m : Memory) (i j : Nat) (h : j < i ∨ i + bs.length ≤ j) :
    (writeBytes m i bs).read j = m.read j := by
  induction bs generalizing m i with
  | nil => rfl
  | cons b bs ih =>
    have hji : j ≠ i := by simp only [List.length_cons] at h; omega
    rw [writeBytes, ih _ _ (by simp only [List.length_cons] at h; omega), read_writeByte, if_neg hji]

theorem read_writeBytes_inside (bs : List Byte) (m : Memory) (i k : Nat) (h : k < bs.length) :
    (writeBytes m i bs).read (i + k) = zext32 bs[k] := by
  induction bs generalizing m i k with
  | nil => simp at h
  | cons b bs ih =>
    cases k with
    | zero => rw [writeBytes, read_writeBytes_outside _ _ _ _ (by omega), read_writeByte]; simp
    | succ k =>
      have := ih (writeByte m i b) (i + 1) k (by simpa using h)
      rw [writeBytes, show i + (k + 1) = i + 1 + k by omega, this]
      simp

theorem writeBytes_wf (bs : List Byte) (m : Memory) (i : Nat) (h : m.wf = true) : (writeBytes m i bs).wf = true := by
  induction bs generalizing m i with
  | nil => exact h
  | cons b bs ih => exact ih _ _ (writeByte_wf m i b h)

theorem writeBytes_within (n : Nat) (bs : List Byte) (m : Memory) (i : Nat) (hi : i + bs.length ≤ n)
    (h : m.within n = true) : (writeBytes m i bs).within n = true := by
  induction bs generalizing m i with
  | nil => exact h
  | cons b bs ih =>
    simp only [List.length_cons] at hi
    exact ih _ _ (by omega) (writeByte_within n m i b (by omega) h)

theorem writeBytes_append (as bs : List Byte) (m : Memory) (i : Nat) :
    writeBytes m i (as ++ bs) = writeBytes (writeBytes m i as) (i + as.length) bs := by
  induction as generalizing m i with
  | nil => rfl
  | cons a as ih =>
    simp only [List.cons_append, writeBytes, ih, List.length_cons]
    congr 1
    omega

/-- Checked writes are the unchecked writes of the bytes that fit, and answer whether all did. -/
theorem writeBytesChecked_eq (n : Nat) (bs : List Byte) (m : Memory) (i : Nat) :
    writeBytesChecked n m i bs = (writeBytes m i (bs.take (n - i)), decide (bs = [] ∨ i + bs.length ≤ n)) := by
  induction bs generalizing m i with
  | nil => simp [writeBytesChecked, writeBytes]
  | cons b bs ih =>
    rw [writeBytesChecked]
    split
    · next h =>
      obtain ⟨d, hd⟩ : ∃ d, n - i = d + 1 := ⟨n - i - 1, by omega⟩
      rw [ih, hd, List.take_succ_cons, show n - (i + 1) = d by omega, writeBytes]
      cases bs with
      | nil => simp; omega
      | cons => simp; omega
    · next h =>
      rw [show n - i = 0 by omega]
      simp [writeBytes]
      omega

end Sys2Proof.Machine
end

