-- ==== Sys2Proof/Laws/State.lean ====
section
/-! SUPPORT. One lemma per field per named update of the state, so that no later proof unfolds a record update; then the
accessors over those updates. -/

namespace Sys2Proof.Machine

variable (s : State)

@[simp] theorem State.setReg_heapSize (r : RegNum) (v : Word) : (s.setReg r v).heapSize = s.heapSize := rfl
@[simp] theorem State.setReg_code (r : RegNum) (v : Word) : (s.setReg r v).code = s.code := rfl
@[simp] theorem State.setReg_regs (r : RegNum) (v : Word) : (s.setReg r v).regs = s.regs.set r.val v := rfl
@[simp] theorem State.setReg_pc (r : RegNum) (v : Word) : (s.setReg r v).pc = s.pc := rfl
@[simp] theorem State.setReg_running (r : RegNum) (v : Word) : (s.setReg r v).running = s.running := rfl
@[simp] theorem State.setReg_escalated (r : RegNum) (v : Word) : (s.setReg r v).escalated = s.escalated := rfl
@[simp] theorem State.setReg_fault (r : RegNum) (v : Word) : (s.setReg r v).fault = s.fault := rfl
@[simp] theorem State.setReg_heap (r : RegNum) (v : Word) : (s.setReg r v).heap = s.heap := rfl
@[simp] theorem State.setReg_input (r : RegNum) (v : Word) : (s.setReg r v).input = s.input := rfl
@[simp] theorem State.setReg_inputClosed (r : RegNum) (v : Word) : (s.setReg r v).inputClosed = s.inputClosed := rfl
@[simp] theorem State.setReg_output (r : RegNum) (v : Word) : (s.setReg r v).output = s.output := rfl
@[simp] theorem State.setReg_getsLine (r : RegNum) (v : Word) : (s.setReg r v).getsLine = s.getsLine := rfl

@[simp] theorem State.setHeap_heapSize (m : Memory) : (s.setHeap m).heapSize = s.heapSize := rfl
@[simp] theorem State.setHeap_code (m : Memory) : (s.setHeap m).code = s.code := rfl
@[simp] theorem State.setHeap_regs (m : Memory) : (s.setHeap m).regs = s.regs := rfl
@[simp] theorem State.setHeap_pc (m : Memory) : (s.setHeap m).pc = s.pc := rfl
@[simp] theorem State.setHeap_running (m : Memory) : (s.setHeap m).running = s.running := rfl
@[simp] theorem State.setHeap_escalated (m : Memory) : (s.setHeap m).escalated = s.escalated := rfl
@[simp] theorem State.setHeap_fault (m : Memory) : (s.setHeap m).fault = s.fault := rfl
@[simp] theorem State.setHeap_heap (m : Memory) : (s.setHeap m).heap = m := rfl
@[simp] theorem State.setHeap_input (m : Memory) : (s.setHeap m).input = s.input := rfl
@[simp] theorem State.setHeap_inputClosed (m : Memory) : (s.setHeap m).inputClosed = s.inputClosed := rfl
@[simp] theorem State.setHeap_output (m : Memory) : (s.setHeap m).output = s.output := rfl
@[simp] theorem State.setHeap_getsLine (m : Memory) : (s.setHeap m).getsLine = s.getsLine := rfl

@[simp] theorem State.setCell_heapSize (i : Nat) (v : Word) : (s.setCell i v).heapSize = s.heapSize := rfl
@[simp] theorem State.setCell_code (i : Nat) (v : Word) : (s.setCell i v).code = s.code := rfl
@[simp] theorem State.setCell_regs (i : Nat) (v : Word) : (s.setCell i v).regs = s.regs := rfl
@[simp] theorem State.setCell_pc (i : Nat) (v : Word) : (s.setCell i v).pc = s.pc := rfl
@[simp] theorem State.setCell_running (i : Nat) (v : Word) : (s.setCell i v).running = s.running := rfl
@[simp] theorem State.setCell_escalated (i : Nat) (v : Word) : (s.setCell i v).escalated = s.escalated := rfl
@[simp] theorem State.setCell_fault (i : Nat) (v : Word) : (s.setCell i v).fault = s.fault := rfl
@[simp] theorem State.setCell_heap (i : Nat) (v : Word) : (s.setCell i v).heap = s.heap.write i v := rfl
@[simp] theorem State.setCell_input (i : Nat) (v : Word) : (s.setCell i v).input = s.input := rfl
@[simp] theorem State.setCell_inputClosed (i : Nat) (v : Word) : (s.setCell i v).inputClosed = s.inputClosed := rfl
@[simp] theorem State.setCell_output (i : Nat) (v : Word) : (s.setCell i v).output = s.output := rfl
@[simp] theorem State.setCell_getsLine (i : Nat) (v : Word) : (s.setCell i v).getsLine = s.getsLine := rfl

@[simp] theorem State.advance_heapSize : (s.advance).heapSize = s.heapSize := rfl
@[simp] theorem State.advance_code : (s.advance).code = s.code := rfl
@[simp] theorem State.advance_regs : (s.advance).regs = s.regs := rfl
@[simp] theorem State.advance_pc : (s.advance).pc = s.pc + 1 := rfl
@[simp] theorem State.advance_running : (s.advance).running = s.running := rfl
@[simp] theorem State.advance_escalated : (s.advance).escalated = s.escalated := rfl
@[simp] theorem State.advance_fault : (s.advance).fault = s.fault := rfl
@[simp] theorem State.advance_heap : (s.advance).heap = s.heap := rfl
@[simp] theorem State.advance_input : (s.advance).input = s.input := rfl
@[simp] theorem State.advance_inputClosed : (s.advance).inputClosed = s.inputClosed := rfl
@[simp] theorem State.advance_output : (s.advance).output = s.output := rfl
@[simp] theorem State.advance_getsLine : (s.advance).getsLine = s.getsLine := rfl

@[simp] theorem State.relocate_heapSize (t : Word) : (s.relocate t).heapSize = s.heapSize := rfl
@[simp] theorem State.relocate_code (t : Word) : (s.relocate t).code = s.code := rfl
@[simp] theorem State.relocate_regs (t : Word) : (s.relocate t).regs = s.regs := rfl
@[simp] theorem State.relocate_pc (t : Word) : (s.relocate t).pc = t := rfl
@[simp] theorem State.relocate_running (t : Word) : (s.relocate t).running = s.running := rfl
@[simp] theorem State.relocate_escalated (t : Word) : (s.relocate t).escalated = s.escalated := rfl
@[simp] theorem State.relocate_fault (t : Word) : (s.relocate t).fault = s.fault := rfl
@[simp] theorem State.relocate_heap (t : Word) : (s.relocate t).heap = s.heap := rfl
@[simp] theorem State.relocate_input (t : Word) : (s.relocate t).input = s.input := rfl
@[simp] theorem State.relocate_inputClosed (t : Word) : (s.relocate t).inputClosed = s.inputClosed := rfl
@[simp] theorem State.relocate_output (t : Word) : (s.relocate t).output = s.output := rfl
@[simp] theorem State.relocate_getsLine (t : Word) : (s.relocate t).getsLine = s.getsLine := rfl

@[simp] theorem State.raise_heapSize (k : FaultKind) : (s.raise k).heapSize = s.heapSize := rfl
@[simp] theorem State.raise_code (k : FaultKind) : (s.raise k).code = s.code := rfl
@[simp] theorem State.raise_regs (k : FaultKind) : (s.raise k).regs = s.regs := rfl
@[simp] theorem State.raise_pc (k : FaultKind) : (s.raise k).pc = s.pc := rfl
@[simp] theorem State.raise_running (k : FaultKind) : (s.raise k).running = s.running := rfl
@[simp] theorem State.raise_escalated (k : FaultKind) : (s.raise k).escalated = s.escalated := rfl
@[simp] theorem State.raise_fault (k : FaultKind) : (s.raise k).fault = k.code := rfl
@[simp] theorem State.raise_heap (k : FaultKind) : (s.raise k).heap = s.heap := rfl
@[simp] theorem State.raise_input (k : FaultKind) : (s.raise k).input = s.input := rfl
@[simp] theorem State.raise_inputClosed (k : FaultKind) : (s.raise k).inputClosed = s.inputClosed := rfl
@[simp] theorem State.raise_output (k : FaultKind) : (s.raise k).output = s.output := rfl
@[simp] theorem State.raise_getsLine (k : FaultKind) : (s.raise k).getsLine = s.getsLine := rfl

@[simp] theorem State.stopRunning_heapSize : (s.stopRunning).heapSize = s.heapSize := rfl
@[simp] theorem State.stopRunning_code : (s.stopRunning).code = s.code := rfl
@[simp] theorem State.stopRunning_regs : (s.stopRunning).regs = s.regs := rfl
@[simp] theorem State.stopRunning_pc : (s.stopRunning).pc = s.pc := rfl
@[simp] theorem State.stopRunning_running : (s.stopRunning).running = false := rfl
@[simp] theorem State.stopRunning_escalated : (s.stopRunning).escalated = s.escalated := rfl
@[simp] theorem State.stopRunning_fault : (s.stopRunning).fault = s.fault := rfl
@[simp] theorem State.stopRunning_heap : (s.stopRunning).heap = s.heap := rfl
@[simp] theorem State.stopRunning_input : (s.stopRunning).input = s.input := rfl
@[simp] theorem State.stopRunning_inputClosed : (s.stopRunning).inputClosed = s.inputClosed := rfl
@[simp] theorem State.stopRunning_output : (s.stopRunning).output = s.output := rfl
@[simp] theorem State.stopRunning_getsLine : (s.stopRunning).getsLine = s.getsLine := rfl

@[simp] theorem State.setEscalated_heapSize (b : Bool) : (s.setEscalated b).heapSize = s.heapSize := rfl
@[simp] theorem State.setEscalated_code (b : Bool) : (s.setEscalated b).code = s.code := rfl
@[simp] theorem State.setEscalated_regs (b : Bool) : (s.setEscalated b).regs = s.regs := rfl
@[simp] theorem State.setEscalated_pc (b : Bool) : (s.setEscalated b).pc = s.pc := rfl
@[simp] theorem State.setEscalated_running (b : Bool) : (s.setEscalated b).running = s.running := rfl
@[simp] theorem State.setEscalated_escalated (b : Bool) : (s.setEscalated b).escalated = b := rfl
@[simp] theorem State.setEscalated_fault (b : Bool) : (s.setEscalated b).fault = s.fault := rfl
@[simp] theorem State.setEscalated_heap (b : Bool) : (s.setEscalated b).heap = s.heap := rfl
@[simp] theorem State.setEscalated_input (b : Bool) : (s.setEscalated b).input = s.input := rfl
@[simp] theorem State.setEscalated_inputClosed (b : Bool) : (s.setEscalated b).inputClosed = s.inputClosed := rfl
@[simp] theorem State.setEscalated_output (b : Bool) : (s.setEscalated b).output = s.output := rfl
@[simp] theorem State.setEscalated_getsLine (b : Bool) : (s.setEscalated b).getsLine = s.getsLine := rfl

@[simp] theorem State.setInput_heapSize (bs : List Byte) (c : Bool) : (s.setInput bs c).heapSize = s.heapSize := rfl
@[simp] theorem State.setInput_code (bs : List Byte) (c : Bool) : (s.setInput bs c).code = s.code := rfl
@[simp] theorem State.setInput_regs (bs : List Byte) (c : Bool) : (s.setInput bs c).regs = s.regs := rfl
@[simp] theorem State.setInput_pc (bs : List Byte) (c : Bool) : (s.setInput bs c).pc = s.pc := rfl
@[simp] theorem State.setInput_running (bs : List Byte) (c : Bool) : (s.setInput bs c).running = s.running := rfl
@[simp] theorem State.setInput_escalated (bs : List Byte) (c : Bool) : (s.setInput bs c).escalated = s.escalated := rfl
@[simp] theorem State.setInput_fault (bs : List Byte) (c : Bool) : (s.setInput bs c).fault = s.fault := rfl
@[simp] theorem State.setInput_heap (bs : List Byte) (c : Bool) : (s.setInput bs c).heap = s.heap := rfl
@[simp] theorem State.setInput_input (bs : List Byte) (c : Bool) : (s.setInput bs c).input = bs := rfl
@[simp] theorem State.setInput_inputClosed (bs : List Byte) (c : Bool) : (s.setInput bs c).inputClosed = c := rfl
@[simp] theorem State.setInput_output (bs : List Byte) (c : Bool) : (s.setInput bs c).output = s.output := rfl
@[simp] theorem State.setInput_getsLine (bs : List Byte) (c : Bool) : (s.setInput bs c).getsLine = s.getsLine := rfl

@[simp] theorem State.setGets_heapSize (m : Memory) (bs : List Byte) (w : Option (List Byte)) : (s.setGets m bs w).heapSize = s.heapSize := rfl
@[simp] theorem State.setGets_code (m : Memory) (bs : List Byte) (w : Option (List Byte)) : (s.setGets m bs w).code = s.code := rfl
@[simp] theorem State.setGets_regs (m : Memory) (bs : List Byte) (w : Option (List Byte)) : (s.setGets m bs w).regs = s.regs := rfl
@[simp] theorem State.setGets_pc (m : Memory) (bs : List Byte) (w : Option (List Byte)) : (s.setGets m bs w).pc = s.pc := rfl
@[simp] theorem State.setGets_running (m : Memory) (bs : List Byte) (w : Option (List Byte)) : (s.setGets m bs w).running = s.running := rfl
@[simp] theorem State.setGets_escalated (m : Memory) (bs : List Byte) (w : Option (List Byte)) : (s.setGets m bs w).escalated = s.escalated := rfl
@[simp] theorem State.setGets_fault (m : Memory) (bs : List Byte) (w : Option (List Byte)) : (s.setGets m bs w).fault = s.fault := rfl
@[simp] theorem State.setGets_heap (m : Memory) (bs : List Byte) (w : Option (List Byte)) : (s.setGets m bs w).heap = m := rfl
@[simp] theorem State.setGets_input (m : Memory) (bs : List Byte) (w : Option (List Byte)) : (s.setGets m bs w).input = bs := rfl
@[simp] theorem State.setGets_inputClosed (m : Memory) (bs : List Byte) (w : Option (List Byte)) : (s.setGets m bs w).inputClosed = s.inputClosed := rfl
@[simp] theorem State.setGets_output (m : Memory) (bs : List Byte) (w : Option (List Byte)) : (s.setGets m bs w).output = s.output := rfl
@[simp] theorem State.setGets_getsLine (m : Memory) (bs : List Byte) (w : Option (List Byte)) : (s.setGets m bs w).getsLine = w := rfl

@[simp] theorem State.emit_heapSize (bs : List Byte) : (s.emit bs).heapSize = s.heapSize := rfl
@[simp] theorem State.emit_code (bs : List Byte) : (s.emit bs).code = s.code := rfl
@[simp] theorem State.emit_regs (bs : List Byte) : (s.emit bs).regs = s.regs := rfl
@[simp] theorem State.emit_pc (bs : List Byte) : (s.emit bs).pc = s.pc := rfl
@[simp] theorem State.emit_running (bs : List Byte) : (s.emit bs).running = s.running := rfl
@[simp] theorem State.emit_escalated (bs : List Byte) : (s.emit bs).escalated = s.escalated := rfl
@[simp] theorem State.emit_fault (bs : List Byte) : (s.emit bs).fault = s.fault := rfl
@[simp] theorem State.emit_heap (bs : List Byte) : (s.emit bs).heap = s.heap := rfl
@[simp] theorem State.emit_input (bs : List Byte) : (s.emit bs).input = s.input := rfl
@[simp] theorem State.emit_inputClosed (bs : List Byte) : (s.emit bs).inputClosed = s.inputClosed := rfl
@[simp] theorem State.emit_output (bs : List Byte) : (s.emit bs).output = s.output ++ bs := rfl
@[simp] theorem State.emit_getsLine (bs : List Byte) : (s.emit bs).getsLine = s.getsLine := rfl

/-! The fields after reset under a launch (10_state.md R38). -/

@[simp] theorem State.ofLaunch_heapSize (l : Launch) : (State.ofLaunch l).heapSize = l.heapSize := rfl
@[simp] theorem State.ofLaunch_code (l : Launch) : (State.ofLaunch l).code = l.code := rfl
@[simp] theorem State.ofLaunch_regs (l : Launch) : (State.ofLaunch l).regs = l.initRegs := rfl
@[simp] theorem State.ofLaunch_pc (l : Launch) : (State.ofLaunch l).pc = 0 := rfl
@[simp] theorem State.ofLaunch_running (l : Launch) : (State.ofLaunch l).running = true := rfl
@[simp] theorem State.ofLaunch_escalated (l : Launch) : (State.ofLaunch l).escalated = false := rfl
@[simp] theorem State.ofLaunch_fault (l : Launch) : (State.ofLaunch l).fault = 0 := rfl
@[simp] theorem State.ofLaunch_heap (l : Launch) : (State.ofLaunch l).heap = l.initHeap := rfl
@[simp] theorem State.ofLaunch_input (l : Launch) : (State.ofLaunch l).input = l.input := rfl
@[simp] theorem State.ofLaunch_inputClosed (l : Launch) : (State.ofLaunch l).inputClosed = l.inputClosed := rfl
@[simp] theorem State.ofLaunch_output (l : Launch) : (State.ofLaunch l).output = [] := rfl
@[simp] theorem State.ofLaunch_getsLine (l : Launch) : (State.ofLaunch l).getsLine = none := rfl

/-! Registers, cells and the configuration over the updates. -/

theorem State.reg_setReg (d r : RegNum) (v : Word) : (s.setReg d v).reg r = if r = d then v else s.reg r := by
  simp [State.reg, State.setReg, Vector.getElem_set, Fin.ext_iff, eq_comm]

@[simp] theorem State.reg_setReg_same (d : RegNum) (v : Word) : (s.setReg d v).reg d = v := by
  simp [State.reg_setReg]

theorem State.reg_setReg_other {d r : RegNum} (h : r ≠ d) (v : Word) : (s.setReg d v).reg r = s.reg r := by
  simp [State.reg_setReg, h]

theorem State.cell_setCell (i j : Nat) (v : Word) : (s.setCell i v).cell j = if j = i then v else s.cell j :=
  Memory.read_write s.heap i j v

@[simp] theorem State.cell_setCell_same (i : Nat) (v : Word) : (s.setCell i v).cell i = v := by
  simp [State.cell_setCell]

@[simp] theorem State.cell_setHeap (m : Memory) (j : Nat) : (s.setHeap m).cell j = m.read j := rfl

@[simp] theorem State.cell_setGets (m : Memory) (bs : List Byte) (w : Option (List Byte)) (j : Nat) :
    (s.setGets m bs w).cell j = m.read j := rfl

@[simp] theorem State.cell_setReg (r : RegNum) (v : Word) (j : Nat) : (s.setReg r v).cell j = s.cell j := rfl
@[simp] theorem State.reg_setHeap (m : Memory) (q : RegNum) : (s.setHeap m).reg q = s.reg q := rfl
@[simp] theorem State.reg_setCell (i : Nat) (v : Word) (q : RegNum) : (s.setCell i v).reg q = s.reg q := rfl
@[simp] theorem State.reg_advance (q : RegNum) : (s.advance).reg q = s.reg q := rfl
@[simp] theorem State.cell_advance (j : Nat) : (s.advance).cell j = s.cell j := rfl
@[simp] theorem State.reg_relocate (t : Word) (q : RegNum) : (s.relocate t).reg q = s.reg q := rfl
@[simp] theorem State.cell_relocate (t : Word) (j : Nat) : (s.relocate t).cell j = s.cell j := rfl
@[simp] theorem State.reg_raise (k : FaultKind) (q : RegNum) : (s.raise k).reg q = s.reg q := rfl
@[simp] theorem State.cell_raise (k : FaultKind) (j : Nat) : (s.raise k).cell j = s.cell j := rfl
@[simp] theorem State.reg_stopRunning (q : RegNum) : (s.stopRunning).reg q = s.reg q := rfl
@[simp] theorem State.cell_stopRunning (j : Nat) : (s.stopRunning).cell j = s.cell j := rfl
@[simp] theorem State.reg_setEscalated (b : Bool) (q : RegNum) : (s.setEscalated b).reg q = s.reg q := rfl
@[simp] theorem State.cell_setEscalated (b : Bool) (j : Nat) : (s.setEscalated b).cell j = s.cell j := rfl
@[simp] theorem State.reg_setInput (bs : List Byte) (c : Bool) (q : RegNum) : (s.setInput bs c).reg q = s.reg q := rfl
@[simp] theorem State.cell_setInput (bs : List Byte) (c : Bool) (j : Nat) : (s.setInput bs c).cell j = s.cell j := rfl
@[simp] theorem State.reg_setGets (m : Memory) (bs : List Byte) (w : Option (List Byte)) (q : RegNum) : (s.setGets m bs w).reg q = s.reg q := rfl
@[simp] theorem State.reg_emit (bs : List Byte) (q : RegNum) : (s.emit bs).reg q = s.reg q := rfl
@[simp] theorem State.cell_emit (bs : List Byte) (j : Nat) : (s.emit bs).cell j = s.cell j := rfl

@[simp] theorem State.codeWords_setReg (r : RegNum) (v : Word) : (s.setReg r v).codeWords = s.codeWords := rfl
@[simp] theorem State.configOk_setReg (r : RegNum) (v : Word) : (s.setReg r v).configOk = s.configOk := rfl
@[simp] theorem State.codeWords_setHeap (m : Memory) : (s.setHeap m).codeWords = s.codeWords := rfl
@[simp] theorem State.configOk_setHeap (m : Memory) : (s.setHeap m).configOk = s.configOk := rfl
@[simp] theorem State.codeWords_setCell (i : Nat) (v : Word) : (s.setCell i v).codeWords = s.codeWords := rfl
@[simp] theorem State.configOk_setCell (i : Nat) (v : Word) : (s.setCell i v).configOk = s.configOk := rfl
@[simp] theorem State.codeWords_advance : (s.advance).codeWords = s.codeWords := rfl
@[simp] theorem State.configOk_advance : (s.advance).configOk = s.configOk := rfl
@[simp] theorem State.codeWords_relocate (t : Word) : (s.relocate t).codeWords = s.codeWords := rfl
@[simp] theorem State.configOk_relocate (t : Word) : (s.relocate t).configOk = s.configOk := rfl
@[simp] theorem State.codeWords_raise (k : FaultKind) : (s.raise k).codeWords = s.codeWords := rfl
@[simp] theorem State.configOk_raise (k : FaultKind) : (s.raise k).configOk = s.configOk := rfl
@[simp] theorem State.codeWords_stopRunning : (s.stopRunning).codeWords = s.codeWords := rfl
@[simp] theorem State.configOk_stopRunning : (s.stopRunning).configOk = s.configOk := rfl
@[simp] theorem State.codeWords_setEscalated (b : Bool) : (s.setEscalated b).codeWords = s.codeWords := rfl
@[simp] theorem State.configOk_setEscalated (b : Bool) : (s.setEscalated b).configOk = s.configOk := rfl
@[simp] theorem State.codeWords_setInput (bs : List Byte) (c : Bool) : (s.setInput bs c).codeWords = s.codeWords := rfl
@[simp] theorem State.configOk_setInput (bs : List Byte) (c : Bool) : (s.setInput bs c).configOk = s.configOk := rfl
@[simp] theorem State.codeWords_setGets (m : Memory) (bs : List Byte) (w : Option (List Byte)) : (s.setGets m bs w).codeWords = s.codeWords := rfl
@[simp] theorem State.configOk_setGets (m : Memory) (bs : List Byte) (w : Option (List Byte)) : (s.setGets m bs w).configOk = s.configOk := rfl
@[simp] theorem State.codeWords_emit (bs : List Byte) : (s.emit bs).codeWords = s.codeWords := rfl
@[simp] theorem State.configOk_emit (bs : List Byte) : (s.emit bs).configOk = s.configOk := rfl

end Sys2Proof.Machine
end

