-- ==== Sys2Proof/Laws/Exec.lean ====
section
/-! SUPPORT. What the heap and branch instructions can do, said once each; the two I/O instructions are in
Laws/IoChannel.lean, and the others have one outcome, true by rfl. -/

namespace Sys2Proof.Machine

theorem State.inHeap_iff (s : State) (i : Nat) : s.inHeap i = true ↔ i < s.heapSize := decide_eq_true_iff

theorem codeTargetOk_iff (s : State) (addr : Byte) : codeTargetOk s addr = true ↔ addr.toNat < s.codeWords := by
  rw [codeTargetOk, State.codeSize, decide_eq_true_iff]
  omega

@[simp] theorem codeAddr_toNat (addr : Byte) : (codeAddr addr).toNat = addr.toNat := by
  have := addr.isLt
  simp [codeAddr, zext32]
  omega

theorem execLoad_cases {dst src : RegNum} {s t : State} (h : execLoad dst src s = .next t) :
    (heapIndex s src < s.heapSize ∧ t = (s.setReg dst (s.cell (heapIndex s src))).advance) ∨
      (s.heapSize ≤ heapIndex s src ∧ t = s.raise .heapSegFault) := by
  simp only [execLoad] at h
  split at h
  · next hi => cases h; exact .inl ⟨(s.inHeap_iff _).mp hi, rfl⟩
  · next hi => cases h; exact .inr ⟨Nat.le_of_not_lt fun hl => hi ((s.inHeap_iff _).mpr hl), rfl⟩

theorem execStore_cases {dst src : RegNum} {s t : State} (h : execStore dst src s = .next t) :
    (heapIndex s dst < s.heapSize ∧ t = (s.setCell (heapIndex s dst) (regOperand s src)).advance) ∨
      (s.heapSize ≤ heapIndex s dst ∧ t = s.raise .heapSegFault) := by
  simp only [execStore] at h
  split at h
  · next hi => cases h; exact .inl ⟨(s.inHeap_iff _).mp hi, rfl⟩
  · next hi => cases h; exact .inr ⟨Nat.le_of_not_lt fun hl => hi ((s.inHeap_iff _).mpr hl), rfl⟩

theorem execJump_cases {addr : Byte} {s t : State} (h : execJump addr s = .next t) :
    (addr.toNat < s.codeWords ∧ t = s.relocate (codeAddr addr)) ∨
      (s.codeWords ≤ addr.toNat ∧ t = s.raise .codeSegFault) := by
  simp only [execJump] at h
  split at h
  · next hi => cases h; exact .inl ⟨(codeTargetOk_iff s addr).mp hi, rfl⟩
  · next hi => cases h; exact .inr ⟨Nat.le_of_not_lt fun hl => hi ((codeTargetOk_iff s addr).mpr hl), rfl⟩

theorem execIte_cases {cond : RegNum} {t f : Byte} {s u : State} (h : execIte cond t f s = .next u) :
    (t.toNat < s.codeWords ∧ f.toNat < s.codeWords ∧
        u = s.relocate (if (regOperand s cond).toNat > 0 then codeAddr t else codeAddr f)) ∨
      ((s.codeWords ≤ t.toNat ∨ s.codeWords ≤ f.toNat) ∧ u = s.raise .codeSegFault) := by
  simp only [execIte] at h
  split at h
  · next hi =>
    cases h
    rw [Bool.and_eq_true, codeTargetOk_iff, codeTargetOk_iff] at hi
    exact .inl ⟨hi.1, hi.2, rfl⟩
  · next hi =>
    cases h
    rw [Bool.and_eq_true, codeTargetOk_iff, codeTargetOk_iff] at hi
    exact .inr ⟨by omega, rfl⟩

end Sys2Proof.Machine
end

