-- ==== Sys2Proof/Laws/IoChannel.lean ====
section
/-! SUPPORT. What the two I/O instructions can do, said once: the scan of `puts`, the line reading of `gets`. -/

namespace Sys2Proof.Machine

/-! ### The scan -/

/-- The scan finds a string exactly when the heap holds it there. -/
theorem scanString_some_iff (m : Memory) (left i : Nat) (str : List Byte) :
    scanString m left i = some str ↔
      str.length < left ∧ (∀ k, ∀ h : k < str.length, byteView (m.read (i + k)) = str[k] ∧ str[k] ≠ nul) ∧
        byteView (m.read (i + str.length)) = nul := by
  induction left generalizing i str with
  | zero => simp [scanString]
  | succ left ih =>
    rw [scanString]
    by_cases hb : byteView (m.read i) = nul
    · simp only [hb, if_true, Option.some.injEq]
      constructor
      · rintro rfl; simpa using hb
      · rintro ⟨-, h, -⟩
        cases str with
        | nil => rfl
        | cons c str =>
          obtain ⟨h₁, h₂⟩ := h 0 (by simp)
          simp only [Nat.add_zero, hb, List.getElem_cons_zero] at h₁ h₂
          exact absurd h₁.symm h₂
    · simp only [hb, if_false, Option.map_eq_some_iff]
      constructor
      · rintro ⟨str, h, rfl⟩
        obtain ⟨hl, hc, he⟩ := (ih (i + 1) str).mp h
        refine ⟨by simpa using hl, ?_, ?_⟩
        · intro k hk
          cases k with
          | zero => exact ⟨rfl, hb⟩
          | succ k => simpa [Nat.add_assoc, Nat.add_comm 1 k] using hc k (by simpa using hk)
        · simpa [Nat.add_assoc, Nat.add_comm 1] using he
      · rintro ⟨hl, hc, he⟩
        cases str with
        | nil => exact absurd (by simpa using he) hb
        | cons c str =>
          refine ⟨str, (ih (i + 1) str).mpr ⟨by simpa using hl, ?_, ?_⟩, ?_⟩
          · intro k hk
            rw [show i + 1 + k = i + (k + 1) by omega]
            exact hc (k + 1) (by simpa using hk)
          · simpa [Nat.add_assoc, Nat.add_comm 1] using he
          · exact congrArg (· :: str) (hc 0 (by simp)).1

/-- The scan fails exactly when no cell up to the end of the heap has byte view NUL. -/
theorem scanString_none_iff (m : Memory) (left i : Nat) :
    scanString m left i = none ↔ ∀ k < left, byteView (m.read (i + k)) ≠ nul := by
  induction left generalizing i with
  | zero => simp [scanString]
  | succ left ih =>
    rw [scanString]
    by_cases hb : byteView (m.read i) = nul
    · simp only [hb, if_true, reduceCtorEq, false_iff, not_forall]
      exact ⟨0, by simp, by simpa using hb⟩
    · simp only [hb, if_false, Option.map_eq_none_iff, ih]
      constructor
      · intro h k hk
        cases k with
        | zero => simpa using hb
        | succ k => simpa [Nat.add_assoc, Nat.add_comm 1 k] using h k (by omega)
      · intro h k hk
        simpa [Nat.add_assoc, Nat.add_comm 1 k] using h (k + 1) (by omega)

theorem State.stringAt_some_iff (s : State) (base : Nat) (str : List Byte) :
    s.stringAt base = some str ↔ s.HoldsString base str := by
  rw [State.stringAt, scanString_some_iff]
  constructor
  · rintro ⟨h₁, h₂, h₃⟩; exact ⟨by omega, h₂, h₃⟩
  · rintro ⟨h₁, h₂, h₃⟩; exact ⟨by omega, h₂, h₃⟩

theorem State.stringAt_none_iff (s : State) (base : Nat) :
    s.stringAt base = none ↔ ∀ i, base ≤ i → i < s.heapSize → byteView (s.cell i) ≠ nul := by
  rw [State.stringAt, scanString_none_iff]
  constructor
  · intro h i h₁ h₂
    have := h (i - base) (by omega)
    rwa [show base + (i - base) = i by omega] at this
  · intro h k hk; exact h _ (by omega) (by omega)

/-- All that `puts` can do. -/
theorem execPuts_cases {reg : RegNum} {s t : State} (h : execPuts reg s = .next t) :
    ((∀ i, heapIndex s reg ≤ i → i < s.heapSize → byteView (s.cell i) ≠ nul) ∧ t = s.raise .heapSegFault) ∨
      ∃ str, s.HoldsString (heapIndex s reg) str ∧
        t = (if s.letsOut str then s.emit str else s).advance := by
  unfold execPuts at h
  split at h
  · next hs => cases h; exact .inl ⟨(State.stringAt_none_iff _ _).mp hs, rfl⟩
  · next str hs => cases h; exact .inr ⟨str, (State.stringAt_some_iff _ _ _).mp hs, rfl⟩

/-! ### Reading a line -/

/-- Bytes that are no newline and fit are stored and the read goes on after them. -/
theorem readLine_append (n base : Nat) (closed : Bool) (ln rest : List Byte) (heap : Memory) (line : List Byte)
    (hn : newline ∉ ln) (hf : ln = [] ∨ base + line.length + ln.length ≤ n) :
    readLine n base closed heap line (ln ++ rest) =
      readLine n base closed (writeBytes heap (base + line.length) ln) (line ++ ln) rest := by
  induction ln generalizing heap line with
  | nil => simp [writeBytes]
  | cons c ln ih =>
    have hf' : base + line.length + (ln.length + 1) ≤ n := by simpa using hf
    have hc : c ≠ newline := fun h => hn (by simp [h])
    rw [List.cons_append, readLine, if_neg hc, if_pos (by omega),
      ih _ _ (fun h => hn (List.mem_cons_of_mem _ h)) (.inr (by simp; omega))]
    simp [writeBytes, Nat.add_assoc]

/-- All that reading a line can do: some bytes `ln`, none a newline, are stored after those already taken; then the line
ends and its NUL fits, or a write does not fit, or the stream is open and empty. -/
theorem readLine_cases (n base : Nat) (closed : Bool) (heap : Memory) (line input : List Byte) :
    ∃ ln, newline ∉ ln ∧ (ln = [] ∨ base + line.length + ln.length ≤ n) ∧
      ((∃ rest, readLine n base closed heap line input =
            .complete (writeByte (writeBytes heap (base + line.length) ln) (base + (line ++ ln).length) nul)
              (line ++ ln) rest ∧
          base + (line ++ ln).length < n ∧
          (input = ln ++ newline :: rest ∨ (input = ln ∧ closed = true ∧ rest = []))) ∨
        (∃ rest, readLine n base closed heap line input =
            .overflow (writeBytes heap (base + line.length) ln) rest ∧
          n ≤ base + (line ++ ln).length ∧
          ((∃ c, input = ln ++ c :: rest) ∨ (input = ln ∧ closed = true ∧ rest = []))) ∨
        (readLine n base closed heap line input =
            .waiting (writeBytes heap (base + line.length) ln) (line ++ ln) ∧
          input = ln ∧ closed = false)) := by
  induction input generalizing heap line with
  | nil =>
    refine ⟨[], by simp, .inl rfl, ?_⟩
    cases closed with
    | false => exact .inr (.inr (by simp [readLine, writeBytes]))
    | true =>
      by_cases h : base + line.length < n
      · exact .inl ⟨[], by simp [readLine, endLine, writeBytes, h]⟩
      · exact .inr (.inl ⟨[], by simp [readLine, endLine, writeBytes, h]; omega⟩)
  | cons c input ih =>
    by_cases hc : c = newline
    · refine ⟨[], by simp, .inl rfl, ?_⟩
      by_cases h : base + line.length < n
      · exact .inl ⟨input, by simp [readLine, endLine, writeBytes, h, hc]⟩
      · exact .inr (.inl ⟨input, by simp [readLine, endLine, writeBytes, h, hc]; omega⟩)
    · by_cases h : base + line.length < n
      · obtain ⟨ln, hn, hf, hcase⟩ := ih (writeByte heap (base + line.length) c) (line ++ [c])
        refine ⟨c :: ln, by simp [hn, Ne.symm hc], .inr ?_, ?_⟩
        · rcases hf with rfl | hf
          · simp; omega
          · simp at hf ⊢; omega
        · simpa [readLine, hc, h, writeBytes, Nat.add_assoc] using hcase
      · refine ⟨[], by simp, .inl rfl, .inr (.inl ⟨input, ?_⟩)⟩
        simp [readLine, writeBytes, h, hc]
        omega

/-! ### `gets` -/

theorem getsNormal_complete {s : State} {base : Nat} {heap : Memory} {line rest : List Byte}
    (h : readLine s.heapSize base s.inputClosed s.heap (s.getsLine.getD []) s.input = .complete heap line rest) :
    getsNormal base s =
      ((s.setGets heap rest none).trigger base line).advance := by
  simp [getsNormal, h]

theorem getsNormal_overflow {s : State} {base : Nat} {heap : Memory} {rest : List Byte}
    (h : readLine s.heapSize base s.inputClosed s.heap (s.getsLine.getD []) s.input = .overflow heap rest) :
    getsNormal base s = (s.setGets heap rest none).raise .heapSegFault := by
  simp [getsNormal, h]

theorem getsNormal_waiting {s : State} {base : Nat} {heap : Memory} {line : List Byte}
    (h : readLine s.heapSize base s.inputClosed s.heap (s.getsLine.getD []) s.input = .waiting heap line) :
    getsNormal base s = s.setGets heap [] (some line) := by
  simp [getsNormal, h]

theorem State.trigger_other (s : State) (base : Nat) {line : List Byte} (h : line ≠ triggerLine) :
    s.trigger base line = s := by simp [State.trigger, h]

theorem State.trigger_same (s : State) (base : Nat) :
    s.trigger base triggerLine = (s.setEscalated true).setHeap (writeBytes s.heap base maskString) := by
  simp [State.trigger]

/-- An Escalated `gets` with room for the nine cells. -/
theorem getsEscalated_fits {s : State} {base : Nat} (h : base + 8 < s.heapSize) :
    getsEscalated base s =
      (s.setGets (writeBytes s.heap base credString) s.input none).advance := by
  have h₁ : credString.take (s.heapSize - base) = credString :=
    List.take_of_length_le (by simp [credString]; omega)
  have h₂ : base + credString.length ≤ s.heapSize := by simp [credString]; omega
  simp [getsEscalated, writeBytesChecked_eq, h₁, h₂]

/-- An Escalated `gets` without that room. -/
theorem getsEscalated_overflow {s : State} {base : Nat} (h : s.heapSize ≤ base + 8) :
    getsEscalated base s =
      (s.setGets (writeBytes s.heap base (credString.take (s.heapSize - base))) s.input none).raise .heapSegFault := by
  have h₂ : ¬ base + credString.length ≤ s.heapSize := by simp [credString]; omega
  have h₃ : credString ≠ [] := by simp [credString]
  simp [getsEscalated, writeBytesChecked_eq, h₂, h₃]

/-- All that `gets` can do. Escalated: the nine cells, or the part that fits and a fault. Normal: some bytes `ln`, none a
newline, are stored after those already taken; then the line is complete, or a write does not fit, or the read waits. -/
theorem execGets_cases {reg : RegNum} {s t : State} (h : execGets reg s = .next t) :
    (s.escalated = true ∧ heapIndex s reg + 8 < s.heapSize ∧
        t = (s.setGets (writeBytes s.heap (heapIndex s reg) credString) s.input none).advance) ∨
      (s.escalated = true ∧ s.heapSize ≤ heapIndex s reg + 8 ∧
        t = (s.setGets (writeBytes s.heap (heapIndex s reg)
          (credString.take (s.heapSize - heapIndex s reg))) s.input none).raise .heapSegFault) ∨
      (s.escalated = false ∧ ∃ line ln heap, line = s.getsLine.getD [] ++ ln ∧ newline ∉ ln ∧
        (ln = [] ∨ heapIndex s reg + line.length ≤ s.heapSize) ∧
        heap = writeBytes s.heap (heapIndex s reg + (s.getsLine.getD []).length) ln ∧
        ((∃ rest, t = ((s.setGets (writeByte heap (heapIndex s reg + line.length) nul) rest none).trigger
              (heapIndex s reg) line).advance ∧
            heapIndex s reg + line.length < s.heapSize ∧
            (s.input = ln ++ newline :: rest ∨ (s.input = ln ∧ s.inputClosed = true ∧ rest = []))) ∨
          (∃ rest, t = (s.setGets heap rest none).raise .heapSegFault ∧
            s.heapSize ≤ heapIndex s reg + line.length ∧
            ((∃ c, s.input = ln ++ c :: rest) ∨ (s.input = ln ∧ s.inputClosed = true ∧ rest = []))) ∨
          (t = s.setGets heap [] (some line) ∧ s.input = ln ∧ s.inputClosed = false))) := by
  unfold execGets at h
  cases he : s.escalated with
  | true =>
    rw [if_pos he] at h
    rcases Nat.lt_or_ge (heapIndex s reg + 8) s.heapSize with hf | hf
    · rw [getsEscalated_fits hf] at h; cases h; exact .inl ⟨rfl, hf, rfl⟩
    · rw [getsEscalated_overflow hf] at h; cases h; exact .inr (.inl ⟨rfl, hf, rfl⟩)
  | false =>
    rw [if_neg (by simp [he])] at h
    obtain ⟨ln, hn, hf, hcase⟩ :=
      readLine_cases s.heapSize (heapIndex s reg) s.inputClosed s.heap (s.getsLine.getD []) s.input
    refine .inr (.inr ⟨rfl, s.getsLine.getD [] ++ ln, ln, _, rfl, hn, ?_, rfl, ?_⟩)
    · simpa [Nat.add_assoc] using hf
    · rcases hcase with ⟨rest, hr, hl, hi⟩ | ⟨rest, hr, hl, hi⟩ | ⟨hr, hi, hc⟩
      · rw [getsNormal_complete hr] at h; cases h; exact .inl ⟨rest, rfl, hl, hi⟩
      · rw [getsNormal_overflow hr] at h; cases h; exact .inr (.inl ⟨rest, rfl, hl, hi⟩)
      · rw [getsNormal_waiting hr] at h; cases h; exact .inr (.inr ⟨rfl, hi, hc⟩)

end Sys2Proof.Machine
end

