-- ==== Sys2Proof/Laws/PerInstr.lean ====
section
/-! SUPPORT. Facts about each instruction as syntax, one lemma per constructor. -/

namespace Sys2Proof.Laws

/-- The encoding of an instruction carries its operation's tag and is a canonical word (30_encoding.md R83 to R85). -/
def EncodeTag.Statement (i : Instr) : Prop :=
  byte0 (encode i) = i.opcode.tag ∧ canonicalWord (encode i) = true

/-- The shape all fourteen share: a word built from the operation's tag and fields. -/
theorem EncodeTag.of_fields {i : Instr} {a1 a2 a3 : Byte} (op : Opcode) (ho : i.opcode = op)
    (e : encode i = wordOfFields op.tag a1 a2 a3) (h1 : op.operandCount < 1 → a1 = 0)
    (h2 : op.operandCount < 2 → a2 = 0) (h3 : op.operandCount < 3 → a3 = 0) : EncodeTag.Statement i :=
  ⟨by rw [e, ho, byte0_wordOfFields], by rw [e]; exact canonicalWord_wordOfFields _ _ _ _ h1 h2 h3⟩

theorem EncodeTag.halt : EncodeTag.Statement .halt :=
  EncodeTag.of_fields .halt rfl rfl (fun _ => rfl) (fun _ => rfl) (fun _ => rfl)

theorem EncodeTag.load (dst src : RegNum) : EncodeTag.Statement (.load dst src) :=
  EncodeTag.of_fields .load rfl rfl (fun h => absurd h (by decide)) (fun h => absurd h (by decide)) (fun _ => rfl)

theorem EncodeTag.store (dst src : RegNum) : EncodeTag.Statement (.store dst src) :=
  EncodeTag.of_fields .store rfl rfl (fun h => absurd h (by decide)) (fun h => absurd h (by decide)) (fun _ => rfl)

theorem EncodeTag.move (dst src : RegNum) : EncodeTag.Statement (.move dst src) :=
  EncodeTag.of_fields .move rfl rfl (fun h => absurd h (by decide)) (fun h => absurd h (by decide)) (fun _ => rfl)

theorem EncodeTag.puti (dst : RegNum) (imm : Byte) : EncodeTag.Statement (.puti dst imm) :=
  EncodeTag.of_fields .puti rfl rfl (fun h => absurd h (by decide)) (fun h => absurd h (by decide)) (fun _ => rfl)

theorem EncodeTag.add (dst a b : RegNum) : EncodeTag.Statement (.add dst a b) :=
  EncodeTag.of_fields .add rfl rfl (fun h => absurd h (by decide)) (fun h => absurd h (by decide)) (fun h => absurd h (by decide))

theorem EncodeTag.sub (dst a b : RegNum) : EncodeTag.Statement (.sub dst a b) :=
  EncodeTag.of_fields .sub rfl rfl (fun h => absurd h (by decide)) (fun h => absurd h (by decide)) (fun h => absurd h (by decide))

theorem EncodeTag.gt (dst a b : RegNum) : EncodeTag.Statement (.gt dst a b) :=
  EncodeTag.of_fields .gt rfl rfl (fun h => absurd h (by decide)) (fun h => absurd h (by decide)) (fun h => absurd h (by decide))

theorem EncodeTag.ge (dst a b : RegNum) : EncodeTag.Statement (.ge dst a b) :=
  EncodeTag.of_fields .ge rfl rfl (fun h => absurd h (by decide)) (fun h => absurd h (by decide)) (fun h => absurd h (by decide))

theorem EncodeTag.eq (dst a b : RegNum) : EncodeTag.Statement (.eq dst a b) :=
  EncodeTag.of_fields .eq rfl rfl (fun h => absurd h (by decide)) (fun h => absurd h (by decide)) (fun h => absurd h (by decide))

theorem EncodeTag.ite (cond : RegNum) (t f : Byte) : EncodeTag.Statement (.ite cond t f) :=
  EncodeTag.of_fields .ite rfl rfl (fun h => absurd h (by decide)) (fun h => absurd h (by decide)) (fun h => absurd h (by decide))

theorem EncodeTag.jump (addr : Byte) : EncodeTag.Statement (.jump addr) :=
  EncodeTag.of_fields .jump rfl rfl (fun h => absurd h (by decide)) (fun _ => rfl) (fun _ => rfl)

theorem EncodeTag.puts (reg : RegNum) : EncodeTag.Statement (.puts reg) :=
  EncodeTag.of_fields .puts rfl rfl (fun h => absurd h (by decide)) (fun _ => rfl) (fun _ => rfl)

theorem EncodeTag.gets (reg : RegNum) : EncodeTag.Statement (.gets reg) :=
  EncodeTag.of_fields .gets rfl rfl (fun h => absurd h (by decide)) (fun _ => rfl) (fun _ => rfl)

end Sys2Proof.Laws
end

