-- ==== Sys2Proof/Laws/Step.lean ====
section
/-! SUPPORT. What a step can do, said once; the later invariants cite `step_cases` instead of unfolding `step`. -/

namespace Sys2Proof.Machine

theorem State.configOk_iff (s : State) :
    s.configOk = true ↔ 1 ≤ s.heapSize ∧ s.heapSize ≤ 2 ^ 32 ∧ s.code.length ≤ 2 ^ 30 - 1 := by
  rw [State.configOk, heapSizeOk, codeWordsOk, Bool.and_eq_true, Bool.and_eq_true, and_assoc]
  exact and_congr decide_eq_true_iff (and_congr decide_eq_true_iff decide_eq_true_iff)

theorem State.canStep_iff (s : State) : s.canStep = true ↔ s.running = true ∧ s.fault = 0 := by
  simp [State.canStep]

theorem State.nextInstr_some_iff (s : State) (i : Instr) :
    s.nextInstr = some i ↔ ∃ w, s.fetch = some w ∧ decode w = .insn i := by
  unfold State.nextInstr
  split
  · next h => simp [h]
  · next w h => split <;> simp_all

/-- All that a step can do: the core does not step, the fetch faults, the word is illegal, or the decoded instruction runs. -/
theorem step_cases {s t : State} (h : step s = .next t) :
    s.configOk = true ∧
      ((s.canStep = false ∧ t = s) ∨
        (s.canStep = true ∧ s.fetch = none ∧ t = s.raise .codeSegFault) ∨
        (s.canStep = true ∧ (∃ w why, s.fetch = some w ∧ decode w = .illegal why) ∧ t = s.raise .illegalInstruction) ∨
        (s.canStep = true ∧ ∃ i, s.nextInstr = some i ∧ exec i s = .next t)) := by
  unfold step at h
  split at h
  · next hc =>
    refine ⟨hc, ?_⟩
    split at h
    · next hs =>
      split at h
      · next hf => cases h; exact .inr (.inl ⟨hs, hf, rfl⟩)
      · next w hf =>
        split at h
        · next why hd => cases h; exact .inr (.inr (.inl ⟨hs, ⟨w, why, hf, hd⟩, rfl⟩))
        · next i hd => exact .inr (.inr (.inr ⟨hs, i, (State.nextInstr_some_iff s i).mpr ⟨w, hf, hd⟩, h⟩))
    · next hs => cases h; exact .inl ⟨by simpa using hs, rfl⟩
  · cases h

/-- A core that does not step keeps its state (40_step_dispatch.md R110). -/
theorem step_stopped {s : State} (hc : s.configOk = true) (hs : s.canStep = false) : step s = .next s := by
  simp [step, hc, hs]

/-- A function that steps as a machine does is that machine's run. -/
theorem core_run_unique (M : Host.Core) (f : Nat → M.State → Host.Outcome M.State M.Fault M.Refusal)
    (zero : ∀ s, f 0 s = .next s) (next : ∀ k s t, M.step s = .next t → f (k + 1) s = f k t)
    (fault : ∀ k s r, M.step s = .fault r → f (k + 1) s = .fault r)
    (refused : ∀ k s r, M.step s = .refused r → f (k + 1) s = .refused r) (k : Nat) (s : M.State) :
    M.run k s = f k s := by
  induction k generalizing s with
  | zero => exact (zero s).symm
  | succ k ih =>
    cases h : M.step s with
    | next t => simp [Host.Core.run, h, next k s t h, ih]
    | fault r => simp [Host.Core.run, h, fault k s r h]
    | refused r => simp [Host.Core.run, h, refused k s r h]

theorem run_next {s t : State} (k : Nat) (h : step s = .next t) : run (k + 1) s = run k t := by simp [run, h]

theorem run_fault {s : State} {r : Fault} (k : Nat) (h : step s = .fault r) : run (k + 1) s = .fault r := by simp [run, h]

theorem run_refused {s : State} {r : Refusal} (k : Nat) (h : step s = .refused r) : run (k + 1) s = .refused r := by
  simp [run, h]

/-- `run` is the host's run of `Sys2Proof.core`. -/
theorem core_run (k : Nat) (s : State) : Sys2Proof.core.run k s = run k s :=
  core_run_unique Sys2Proof.core run (fun _ => rfl) (fun k _ _ h => run_next k h) (fun k _ _ h => run_fault k h)
    (fun k _ _ h => run_refused k h) k s

/-- `k + 1` steps are one step and then `k`. -/
theorem run_succ {k : Nat} {s t : State} (h : run (k + 1) s = .next t) :
    ∃ u, step s = .next u ∧ run k u = .next t := by
  rw [run] at h
  split at h
  · next u hu => exact ⟨u, hu, h⟩
  · cases h
  · cases h

/-- A relation that holds between a state and itself, and that one more step in front keeps, holds between the ends of
every run. -/
theorem run_induction {P : State → State → Prop} (refl : ∀ s, P s s)
    (cons : ∀ s t u, step s = .next t → P t u → P s u) {k : Nat} {s t : State}
    (h : run k s = .next t) : P s t := by
  induction k generalizing s with
  | zero => cases h; exact refl _
  | succ k ih =>
    obtain ⟨u, hu, hr⟩ := run_succ h
    exact cons s u t hu (ih hr)

end Sys2Proof.Machine
end

