-- ==== Sys2Proof/Tests/Slice0.lean ====
section
/-! SUPPORT. The author's own tests. Three parts: what `WellFormed` refuses; words written out from 30_encoding.md and the
vectors of 95_test_vectors.md, their ids in the docstrings (the spec derives them, nothing is measured); and for every
statement with hypotheses a witness that something meets them all. -/

namespace Sys2Proof.Tests

open Sys2Proof Sys2Proof.Machine

/-! ### Helpers -/

/-- A launch of the reference configuration but for the parts given. -/
def tryLaunch (heapSize : Nat) (code : List Word) (cells : Memory) : Launch :=
  { Launch.reference with heapSize := heapSize, codeSize := 4 * code.length, code := code, initHeap := cells }

/-- A bench after reset: heap size, code, registers that are not zero, cells that are not zero. -/
def bench (heapSize : Nat) (code : List Word) (regs : List (RegNum × Word)) (cells : Memory) : State :=
  regs.foldl (fun s p => s.setReg p.1 p.2) (State.ofLaunch (tryLaunch heapSize code cells))

/-- The characters of an ASCII text as bytes. -/
def text (cs : List Char) : List Byte := cs.map (fun c => BitVec.ofNat 8 c.toNat)

/-- One step answers a next state with the property. -/
def stepTo (s : State) (p : State → Prop) [∀ t, Decidable (p t)] : Bool :=
  match step s with
  | .next t => decide (p t)
  | _ => false

/-- One instruction answers a next state with the property. -/
def execTo (i : Instr) (s : State) (p : State → Prop) [∀ t, Decidable (p t)] : Bool :=
  match exec i s with
  | .next t => decide (p t)
  | _ => false

theorem of_stepTo {s : State} {p : State → Prop} [∀ t, Decidable (p t)] (h : stepTo s p = true) :
    ∃ t, step s = .next t ∧ p t := by
  unfold stepTo at h
  split at h
  · exact ⟨_, ‹_›, of_decide_eq_true h⟩
  · cases h

theorem of_execTo {i : Instr} {s : State} {p : State → Prop} [∀ t, Decidable (p t)] (h : execTo i s p = true) :
    ∃ t, exec i s = .next t ∧ p t := by
  unfold execTo at h
  split at h
  · exact ⟨_, ‹_›, of_decide_eq_true h⟩
  · cases h

/-! ### WellFormed: an ill-formed term for each check -/

/-- HEAP_SIZE 0 and 2^32 + 1 are refused, 1 and 2^32 admitted (00_scope.md R7). -/
theorem test_heapSize_limits :
    heapSizeOk 0 = false ∧ heapSizeOk (2 ^ 32 + 1) = false ∧ heapSizeOk 1 = true ∧ heapSizeOk (2 ^ 32) = true := by decide

/-- CODE_WORDS 2^30 is refused, 2^30 - 1 and 0 admitted (R7). -/
theorem test_codeWords_limits :
    codeWordsOk (2 ^ 30) = false ∧ codeWordsOk (2 ^ 30 - 1) = true ∧ codeWordsOk 0 = true := by decide

/-- A heap list out of order, with an index twice, or with an entry an unlisted index reads as. -/
theorem test_memory_ill_formed :
    Memory.wf [(5, 1), (3, 1)] = false ∧ Memory.wf [(3, 1), (3, 2)] = false ∧ Memory.wf [(3, 0)] = false ∧
    Memory.wf [(3, 1), (5, 1)] = true := by decide

/-- A cell at index HEAP_SIZE does not exist, one at HEAP_SIZE - 1 does (20_memory.md R50). -/
theorem test_memory_outside : Memory.within 16 [(16, 1)] = false ∧ Memory.within 16 [(15, 1)] = true := by decide

/-- Launches refused for each part: the size in bytes, the heap size, the initial heap twice; and one admitted. -/
theorem test_launch_checks :
    ({ tryLaunch 16 [0] [] with codeSize := 5 } : Launch).wf = false ∧
    (tryLaunch 0 [] []).wf = false ∧ (tryLaunch 16 [] [(3, 0)]).wf = false ∧ (tryLaunch 16 [] [(16, 1)]).wf = false ∧
    (tryLaunch 16 [0] [(15, 1)]).wf = true := by decide

/-- A write of the value an unlisted cell reads as removes the entry. -/
theorem test_memory_write_canonical :
    Memory.write [(3, 1), (5, 2)] 4 7 = [(3, 1), (4, 7), (5, 2)] ∧ Memory.write [(3, 1), (5, 2)] 5 0 = [(3, 1)] ∧
    Memory.write [(3, 1)] 3 9 = [(3, 9)] := by decide

/-! ### Decoding: one word a constructor, written from the formats of 30_encoding.md R83 and the tags of R85 -/

theorem test_decode_halt : decode 0x00000000 = .insn .halt ∧ encode .halt = 0x00000000 := by decide
theorem test_decode_halt_unused : decode 0x12345600 = .insn .halt := by decide
theorem test_decode_load : decode 0x00000210 = .insn (.load 2 0) ∧ encode (.load 2 0) = 0x00000210 := by decide
theorem test_decode_store : decode 0x00010020 = .insn (.store 0 1) ∧ encode (.store 0 1) = 0x00010020 := by decide
theorem test_decode_move : decode 0x00070330 = .insn (.move 3 7) ∧ encode (.move 3 7) = 0x00070330 := by decide
theorem test_decode_puti : decode 0x00410140 = .insn (.puti 1 65) ∧ encode (.puti 1 65) = 0x00410140 := by decide
theorem test_decode_add : decode 0x01030350 = .insn (.add 3 3 1) ∧ encode (.add 3 3 1) = 0x01030350 := by decide
theorem test_decode_sub : decode 0x01000060 = .insn (.sub 0 0 1) ∧ encode (.sub 0 0 1) = 0x01000060 := by decide
theorem test_decode_gt : decode 0x02010170 = .insn (.gt 1 1 2) ∧ encode (.gt 1 1 2) = 0x02010170 := by decide
theorem test_decode_ge : decode 0x02010080 = .insn (.ge 0 1 2) ∧ encode (.ge 0 1 2) = 0x02010080 := by decide
theorem test_decode_eq : decode 0x05050590 = .insn (.eq 5 5 5) ∧ encode (.eq 5 5 5) = 0x05050590 := by decide
theorem test_decode_ite : decode 0x0a0705a0 = .insn (.ite 5 7 10) ∧ encode (.ite 5 7 10) = 0x0a0705a0 := by decide
theorem test_decode_jump : decode 0x0000ffb0 = .insn (.jump 255) ∧ encode (.jump 255) = 0x0000ffb0 := by decide
theorem test_decode_puts : decode 0x000002c0 = .insn (.puts 2) ∧ encode (.puts 2) = 0x000002c0 := by decide
theorem test_decode_gets : decode 0x000001d0 = .insn (.gets 1) ∧ encode (.gets 1) = 0x000001d0 := by decide

/-- Vectors E3 to E9: tags outside the table, the two reserved ones by their own name (R87, R88). -/
theorem test_decode_illegal :
    decode 0x00000011 = .illegal .unlistedTag ∧ decode 0x0000000f = .illegal .unlistedTag ∧
    decode 0x000000e0 = .illegal .reservedTag ∧ decode 0x000000f0 = .illegal .reservedTag ∧
    decode 0xffffffff = .illegal .unlistedTag ∧ decode 0x00000001 = .illegal .unlistedTag ∧
    decode 0x010203d1 = .illegal .unlistedTag := by decide

/-- The table gives a row all 32 bits; bits above `nbits` are zero. -/
theorem test_decodeTableWord :
    decodeTableWord 32 0x060300a0 = some (.ite 0 3 6) ∧ decodeTableWord 8 0x000003b0 = some (.jump 0) ∧
    decodeTableWord 32 0xe0 = none := by decide

/-! ### One step each, from the vectors of 95_test_vectors.md -/

/-- `withFetchWord` at reset: `puti r1,65` is fetched and run (M4). -/
theorem test_fetchWord : stepTo (State.reset.withFetchWord 32 0x00410140) (fun t => t.reg 1 = 65 ∧ t.pc = 1) = true := by
  decide

/-- M1. -/
theorem test_move : stepTo (bench 16 [0x00070330] [(3, 1), (7, 0xCAFEBABE)] [])
    (fun t => t.reg 3 = 0xCAFEBABE ∧ t.reg 7 = 0xCAFEBABE ∧ t.pc = 1) = true := by decide

/-- M3: the last register. -/
theorem test_move_last_register : stepTo (bench 16 [0x0000ff30] [(0, 0xFFFFFFFF)] [])
    (fun t => t.reg 255 = 0xFFFFFFFF) = true := by decide +kernel

/-- M4: the upper bits are cleared. -/
theorem test_puti : stepTo (bench 16 [0x00410140] [(1, 0xFFFFFFFF)] []) (fun t => t.reg 1 = 65 ∧ t.pc = 1) = true := by decide

/-- M5: not sign-extended. -/
theorem test_puti_zero_extends : stepTo (bench 16 [0x00ff0940] [(9, 3)] []) (fun t => t.reg 9 = 255) = true := by decide

/-- M12: the index is read before the register is written. -/
theorem test_load_same_register : stepTo (bench 8192 [0x00000010] [(0, 5)] [(5, 6)])
    (fun t => t.reg 0 = 6 ∧ t.cell 5 = 6 ∧ t.pc = 1) = true := by decide

/-- M11: an index far out of range. -/
theorem test_load_out_of_range : stepTo (bench 8192 [0x00000210] [(0, 0xFFFFFFFF), (2, 9)] [])
    (fun t => t.fault = 2 ∧ t.pc = 0 ∧ t.reg 2 = 9 ∧ t.running = true) = true := by decide

/-- M14: the whole cell, at the last index. -/
theorem test_store : stepTo (bench 8192 [0x00010020] [(0, 8191), (1, 0xFFFFFFFF)] [])
    (fun t => t.cell 8191 = 0xFFFFFFFF ∧ t.reg 0 = 8191 ∧ t.pc = 1) = true := by decide

/-- M15: one past the end. -/
theorem test_store_out_of_range : stepTo (bench 8192 [0x00010020] [(0, 8192), (1, 1)] [])
    (fun t => t.fault = 2 ∧ t.pc = 0 ∧ t.heap = []) = true := by decide

/-- A2. -/
theorem test_add : stepTo (bench 16 [0x02010050] [(0, 0xDEADBEEF), (1, 0xFFFFFFFF), (2, 0xFFFFFFFF)] [])
    (fun t => t.reg 0 = 0xFFFFFFFE ∧ t.pc = 1) = true := by decide

/-- A5: the destination is both sources. -/
theorem test_add_same_register : stepTo (bench 16 [0x02020250] [(2, 0x90000000)] [])
    (fun t => t.reg 2 = 0x20000000) = true := by decide

/-- A6: wraps below zero. -/
theorem test_sub_wraps : stepTo (bench 16 [0x02010060] [(0, 0xDEADBEEF), (2, 1)] [])
    (fun t => t.reg 0 = 0xFFFFFFFF) = true := by decide

/-- A11: first minus second. -/
theorem test_sub_order : stepTo (bench 16 [0x02010060] [(1, 3), (2, 5)] []) (fun t => t.reg 0 = 0xFFFFFFFE) = true := by decide

/-- A14: unsigned. -/
theorem test_gt_unsigned : stepTo (bench 16 [0x02010070] [(0, 0xDEADBEEF), (1, 0xFFFFFFFF), (2, 1)] [])
    (fun t => t.reg 0 = 1) = true := by decide

/-- A13: not on equal values. -/
theorem test_gt_equal : stepTo (bench 16 [0x02010070] [(0, 9), (1, 1), (2, 1)] []) (fun t => t.reg 0 = 0) = true := by decide

/-- A17: on equal values. -/
theorem test_ge_equal : stepTo (bench 16 [0x02010080] [(1, 1), (2, 1)] []) (fun t => t.reg 0 = 1) = true := by decide

/-- A21: unsigned. -/
theorem test_ge_unsigned : stepTo (bench 16 [0x02010080] [(0, 9), (1, 0x7FFFFFFF), (2, 0x80000000)] [])
    (fun t => t.reg 0 = 0) = true := by decide

/-- A22. -/
theorem test_eq : stepTo (bench 16 [0x02010090] [(1, 7), (2, 7)] []) (fun t => t.reg 0 = 1) = true := by decide

/-- A23. -/
theorem test_eq_differs : stepTo (bench 16 [0x02010090] [(0, 9), (1, 7), (2, 8)] []) (fun t => t.reg 0 = 0) = true := by decide

/-- B10: any non-zero value is true. -/
theorem test_ite_true : stepTo (bench 16 [0x060300a0, 0, 0, 0, 0, 0, 0] [(0, 0x80000000)] [])
    (fun t => t.pc = 3 ∧ t.fault = 0) = true := by decide

/-- B12: the false target is bad though the true one is selected. -/
theorem test_ite_bad_target : stepTo (bench 16 [0x090200a0, 0, 0] [(0, 1)] []) (fun t => t.pc = 0 ∧ t.fault = 3) = true := by
  decide

/-- B4: the last word is a valid target. -/
theorem test_jump : stepTo (bench 16 [0x000006b0, 0, 0, 0, 0, 0, 0] [] []) (fun t => t.pc = 6 ∧ t.fault = 0) = true := by decide

/-- B5: one past the end. -/
theorem test_jump_past_end : stepTo (bench 16 [0x000007b0, 0, 0, 0, 0, 0, 0] [] []) (fun t => t.pc = 0 ∧ t.fault = 3) = true := by
  decide

/-- E1 with the exit code of B17. -/
theorem test_halt : stepTo (bench 16 [0] [] []) (fun t => t.pc = 1 ∧ t.running = false ∧ t.exitCode = some 0) = true := by decide

/-- O3: byte views are printed, and a byte view of zero ends the string. -/
theorem test_puts_byte_view : stepTo (bench 16 [0xc0] [] [(0, 0x141), (1, 0x100), (2, 0x42)])
    (fun t => t.output = [0x41] ∧ t.pc = 1) = true := by decide

/-- O8's heap: "Login Success\n". -/
def loginCells : Memory :=
  [(0, 76), (1, 111), (2, 103), (3, 105), (4, 110), (5, 32), (6, 83), (7, 117), (8, 99), (9, 99), (10, 101), (11, 115),
    (12, 115), (13, 10)]

/-- O8: it contains "Success\n" and is not exactly it. -/
theorem test_puts_filtered : stepTo ((bench 32 [0xc0] [] loginCells).setEscalated true)
    (fun t => t.output = [] ∧ t.fault = 0 ∧ t.pc = 1) = true := by decide

/-- G8: the trigger, MASK and the residue of the line. -/
theorem test_gets_trigger :
    stepTo ((bench 16 [0xd0] [(0, 6)] []).setInput (text ['s','u','p','e','r','u','s','e','r','\n','r','e','s','t']) true)
      (fun t => t.heap = [(6, 117), (7, 115), (8, 101), (9, 114), (11, 117), (12, 115), (13, 101), (14, 114)] ∧
        t.input = text ['r','e','s','t'] ∧ t.escalated = true ∧ t.fault = 0 ∧ t.pc = 1) = true := by decide

/-- G3: the byte that could not be stored is taken. -/
theorem test_gets_overlong :
    stepTo ((bench 16 [0xd0] [(0, 10)] []).setInput (text ['a','b','c','d','e','f','g','h','\n']) true)
      (fun t => t.heap = [(10, 97), (11, 98), (12, 99), (13, 100), (14, 101), (15, 102)] ∧
        t.input = text ['h','\n'] ∧ t.fault = 2 ∧ t.pc = 0) = true := by decide

/-- F1: the empty program, which is the machine right after reset. -/
theorem test_fetch_empty : stepTo State.reset (fun t => t.fault = 3 ∧ t.pc = 0 ∧ t.running = true ∧ t.exitCode = some 1) = true := by
  decide

/-! ### Witnesses: for each statement with hypotheses, something that meets them all together, each clause at a boundary -/

/-- Each tag's clause and the last clause, at a word. -/
theorem witness_EveryWordDecodesByItsTag :
    [0x12345600, 0x10, 0x20, 0x30, 0x40, 0x50, 0x60, 0x70, 0x80, 0x90, 0xa0, 0xb0, 0xc0, 0xffffffd0].map
        (fun w : Word => w.toNat % 256) =
      [0x00, 0x10, 0x20, 0x30, 0x40, 0x50, 0x60, 0x70, 0x80, 0x90, 0xa0, 0xb0, 0xc0, 0xd0] ∧
    (0x010203d1 : Word).toNat % 256 ∉
      [0x00, 0x10, 0x20, 0x30, 0x40, 0x50, 0x60, 0x70, 0x80, 0x90, 0xa0, 0xb0, 0xc0, 0xd0] := by decide

theorem witness_StepRunsTheDecodedInstruction :
    let s := bench 16 [0, 0x00410140] [] []
    s.advance.configOk = true ∧ s.advance.running = true ∧ s.advance.fault = 0 ∧
      s.advance.code[s.advance.pc.toNat]? = some 0x00410140 ∧ decode 0x00410140 = .insn (.puti 1 65) := by decide

/-- The counter at CODE_WORDS, and the empty program. -/
theorem witness_FetchBeyondTheCodeFaults :
    let s := (bench 16 [0] [] []).advance
    (s.configOk = true ∧ s.running = true ∧ s.fault = 0 ∧ s.code.length ≤ s.pc.toNat) ∧
    (State.reset.configOk = true ∧ State.reset.running = true ∧ State.reset.fault = 0 ∧
      State.reset.code.length ≤ State.reset.pc.toNat) := by decide

theorem witness_IllegalWordFaultsAtDispatch :
    let s := bench 16 [0xe0] [] []
    s.configOk = true ∧ s.running = true ∧ s.fault = 0 ∧ s.code[s.pc.toNat]? = some 0xe0 ∧
      (0xe0 : Word).toNat % 256 ∉
        [0x00, 0x10, 0x20, 0x30, 0x40, 0x50, 0x60, 0x70, 0x80, 0x90, 0xa0, 0xb0, 0xc0, 0xd0] := by decide

/-- A halted and a faulted state. -/
theorem witness_StoppedCoreKeepsItsState :
    let s := bench 16 [0] [] []
    (s.stopRunning.configOk = true ∧ s.stopRunning.running = false) ∧
    ((s.raise .codeSegFault).configOk = true ∧ (s.raise .codeSegFault).fault ≠ 0) := by decide

/-- Configurations at both limits of HEAP_SIZE and at the limit of CODE_WORDS, and one past each of the three. -/
theorem witness_StepAnswersExactlyOnAdmittedConfigurations :
    let admitted := fun s : State => 1 ≤ s.heapSize ∧ s.heapSize ≤ 2 ^ 32 ∧ s.code.length ≤ 2 ^ 30 - 1
    admitted (bench 1 [] [] []) ∧ admitted (bench (2 ^ 32) (List.replicate (2 ^ 30 - 1) 0) [] []) ∧
    ¬ admitted (bench 0 [] [] []) ∧ ¬ admitted (bench (2 ^ 32 + 1) [] [] []) ∧
    ¬ admitted (bench 16 (List.replicate (2 ^ 30) 0) [] []) := by
  refine ⟨by decide, ⟨by decide, by decide, ?_⟩, by decide, by decide, fun h => ?_⟩
  · show (List.replicate (2 ^ 30 - 1) (0 : Word)).length ≤ 2 ^ 30 - 1
    rw [List.length_replicate]
  · have := show (List.replicate (2 ^ 30) (0 : Word)).length ≤ 2 ^ 30 - 1 from h.2.2
    rw [List.length_replicate] at this
    omega

theorem witness_WithFetchWordRunsItsWord :
    State.reset.configOk = true ∧ State.reset.pc.toNat < 2 ^ 30 - 1 ∧
      decodeTableWord 32 0x060300a0 = some (.ite 0 3 6) := by decide

/-- The last index. -/
theorem witness_LoadReadsTheWholeCell :
    let s := bench 16 [] [(0, 15)] []
    (s.reg 0).toNat < s.heapSize := by decide

theorem witness_StoreWritesTheOneCell :
    let s := bench (2 ^ 32) [] [(0, 0xFFFFFFFF)] []
    (s.reg 0).toNat < s.heapSize := by decide

/-- Both clauses, at the first bad index and at the greatest. -/
theorem witness_HeapIndexOutOfRangeFaults :
    let s := bench 16 [] [(0, 16), (1, 0xFFFFFFFF)] []
    s.heapSize ≤ (s.reg 0).toNat ∧ s.heapSize ≤ (s.reg 1).toNat := by decide

theorem witness_StoreThenLoadGivesTheValueBack :
    let s := bench 16 [] [(0, 15), (1, 65)] []
    (s.reg 0).toNat < s.heapSize ∧ ∃ t, exec (.store 0 1) s = .next t ∧ t.advance.heapSize = t.heapSize ∧
      t.advance.cell (s.reg 0).toNat = t.cell (s.reg 0).toNat ∧ t.advance.reg 0 = s.reg 0 :=
  ⟨by decide, of_execTo (by decide)⟩

/-- The first two clauses in register 0, the last two in register 1. -/
theorem witness_HeapBoundaryIsExact :
    let s := bench 16 [] [(0, 16), (1, 15)] []
    (s.reg 0).toNat = s.heapSize ∧ s.heapSize = (s.reg 1).toNat + 1 := by decide

theorem witness_ComparisonLawsHold :
    let s := bench 16 [] [(1, 7), (2, 7)] []
    (∃ t, exec (.gt 0 1 2) s = .next t ∧ t.pc = 1) ∧ (∃ t, exec (.eq 0 1 2) s = .next t ∧ t.pc = 1) ∧
    (∃ t, exec (.ge 0 1 2) s = .next t ∧ t.pc = 1) ∧ (∃ t, exec (.ge 0 2 1) s = .next t ∧ t.pc = 1) :=
  ⟨of_execTo (by decide), of_execTo (by decide), of_execTo (by decide), of_execTo (by decide)⟩

/-- The last word of the buffer and one past it. -/
theorem witness_JumpGoesToItsTargetOrFaults :
    let s := bench 16 [0, 0, 0] [] []
    (2 : Byte).toNat < s.code.length ∧ s.code.length ≤ (3 : Byte).toNat := by decide

theorem witness_IteSelectsItsTarget :
    let s := bench 16 [0, 0, 0] [] []
    (2 : Byte).toNat < s.code.length ∧ (0 : Byte).toNat < s.code.length := by decide

/-- Only the true target bad, then only the false one. -/
theorem witness_IteFaultsOnEitherBadTarget :
    let s := bench 16 [0, 0, 0] [] []
    (s.code.length ≤ (3 : Byte).toNat ∧ ¬ s.code.length ≤ (2 : Byte).toNat) := by decide

theorem witness_HaltStopsCleanly : (bench 16 [0] [] []).fault = 0 := by decide

/-- O10: the empty string in the last cell; O3: a string of one character. -/
theorem witness_NormalPutsPrintsEveryString :
    let s := bench 16 [0xc0] [(0, 15)] [(0, 0x141), (1, 0x100), (2, 0x42)]
    s.escalated = false ∧ s.HoldsString (s.reg 0).toNat [] ∧ s.HoldsString (s.reg 1).toNat [0x41] :=
  ⟨by decide, ⟨by decide, by decide, by decide⟩, ⟨by decide, by decide, by decide⟩⟩

/-- O4 shifted to end in the last cell: PASS in register 0; and another string, PASS without its first character. -/
theorem witness_EscalatedPutsPrintsOnlySuccess :
    let s := (bench 16 [0xc0] [(0, 7), (1, 8)]
      [(7, 83), (8, 117), (9, 99), (10, 99), (11, 101), (12, 115), (13, 115), (14, 10)]).setEscalated true
    s.escalated = true ∧ s.HoldsString (s.reg 0).toNat passString ∧
      s.HoldsString (s.reg 1).toNat (passString.drop 1) ∧ passString.drop 1 ≠ passString :=
  ⟨by decide, ⟨by decide, by decide, by decide⟩, ⟨by decide, by decide, by decide⟩, by decide⟩

/-- O1, and O2 whose start index is HEAP_SIZE. -/
theorem witness_UnterminatedPutsFaults :
    let s := bench 16 [0xc0] [(0, 14), (1, 16)] [(14, 65), (15, 66)]
    (∀ i, (s.reg 0).toNat ≤ i → i < s.heapSize → (s.cell i).toNat % 256 ≠ 0) ∧
    (∀ i, (s.reg 1).toNat ≤ i → i < s.heapSize → (s.cell i).toNat % 256 ≠ 0) := by decide

/-- G1, whose NUL goes to the last cell, and the same line ended by the end of the stream. -/
theorem witness_NormalGetsStoresOneLine :
    let s := bench 16 [0xd0] [(0, 10)] []
    let ln := text ['a','b','c','d','e']
    let s1 := s.setInput (ln ++ [0x0A, 0x78]) false
    let s2 := s.setInput ln true
    (s1.escalated = false ∧ s1.getsLine = none ∧ s1.OffersLine ln [0x78] ∧ ln ≠ triggerLine ∧
      (s1.reg 0).toNat + ln.length < s1.heapSize) ∧
    (s2.escalated = false ∧ s2.getsLine = none ∧ s2.OffersLine ln [] ∧ ln ≠ triggerLine ∧
      (s2.reg 0).toNat + ln.length < s2.heapSize) :=
  ⟨⟨by decide, by decide, ⟨by decide, .inl (by decide)⟩, by decide, by decide⟩,
    ⟨by decide, by decide, ⟨by decide, .inr (by decide)⟩, by decide, by decide⟩⟩

/-- G8, whose NUL goes to the last cell, and G17. -/
theorem witness_TriggerLineEscalatesAndIsMasked :
    let s := bench 16 [0xd0] [(0, 6)] []
    let s1 := s.setInput (triggerLine ++ [0x0A, 0x78]) false
    let s2 := s.setInput triggerLine true
    (s1.escalated = false ∧ s1.getsLine = none ∧ s1.OffersLine triggerLine [0x78] ∧
      (s1.reg 0).toNat + 9 < s1.heapSize) ∧
    (s2.escalated = false ∧ s2.getsLine = none ∧ s2.OffersLine triggerLine [] ∧
      (s2.reg 0).toNat + 9 < s2.heapSize) :=
  ⟨⟨by decide, by decide, ⟨by decide, .inl (by decide)⟩, by decide⟩,
    ⟨by decide, by decide, ⟨by decide, .inr (by decide)⟩, by decide⟩⟩

/-- G3 (a byte that does not fit), G2 (a NUL that does not fit after a newline), the same at the end of the stream, and G14
(an index beyond the heap, where no byte fits). -/
theorem witness_OverlongLineFaultsAfterPartialWrites :
    let s := bench 16 [0xd0] [(0, 10), (1, 0xFFFFFFFF)] []
    let ln := text ['a','b','c','d','e','f']
    s.escalated = false ∧ s.getsLine = none ∧ newline ∉ ln ∧ ln.length = s.heapSize - (s.reg 0).toNat ∧
    (s.setInput (ln ++ [0x67, 0x0A]) false).input = ln ++ 0x67 :: [0x0A] ∧
    (s.setInput (ln ++ [0x0A]) false).input = ln ++ 0x0A :: [] ∧
    ((s.setInput ln true).input = ln ∧ (s.setInput ln true).inputClosed = true) ∧
    (([] : List Byte).length = s.heapSize - (s.reg 1).toNat ∧
      (s.setInput [0x61, 0x0A] false).input = [] ++ 0x61 :: [0x0A]) := by decide

/-- G5. -/
theorem witness_EscalatedGetsFillsInPassword :
    let s := (bench 16 [0xd0] [(0, 7)] []).setEscalated true
    s.escalated = true ∧ (s.reg 0).toNat + 8 < s.heapSize := by decide

/-- G4, and an index beyond the heap. -/
theorem witness_EscalatedGetsFaultsAfterPartialWrites :
    let s := (bench 16 [0xd0] [(0, 8), (1, 0xFFFFFFFF)] []).setEscalated true
    s.escalated = true ∧ s.heapSize ≤ (s.reg 0).toNat + 8 ∧ s.heapSize ≤ (s.reg 1).toNat + 8 := by decide

/-- A `gets` that must wait: two bytes there, six cells of room. -/
def waitBench : State := (bench 16 [0xd0] [(0, 10)] []).setInput (text ['a','b']) false

/-- The wait with two bytes, and one whose bytes fill the heap. -/
theorem witness_NormalGetsWaitsOnAnOpenStream :
    let s := waitBench
    let s2 := s.setInput (text ['a','b','c','d','e','f']) false
    (s.escalated = false ∧ s.getsLine = none ∧ s.inputClosed = false ∧ newline ∉ s.input ∧
      s.input.length ≤ s.heapSize - (s.reg 0).toNat) ∧
    (s2.escalated = false ∧ s2.getsLine = none ∧ s2.inputClosed = false ∧ newline ∉ s2.input ∧
      s2.input.length ≤ s2.heapSize - (s2.reg 0).toNat) := by decide

theorem witness_WaitingGetsResumesWhereItStood :
    waitBench.escalated = false ∧ waitBench.inputClosed = false ∧
      ∃ t, exec (.gets 0) waitBench = .next t ∧ t.getsLine = some (text ['a','b']) :=
  ⟨by decide, by decide, of_execTo (by decide)⟩

theorem witness_EscalatedGetsIgnoresTheInput :
    (waitBench.setEscalated true).escalated = true ∧
      ∃ t, exec (.gets 0) (waitBench.setEscalated true) = .next t ∧ t.input = text ['a','b'] :=
  ⟨by decide, of_execTo (by decide)⟩

/-- A step that changes the bit, one that does so after a wait, and a step of another instruction. -/
theorem witness_EscalatedBitHasOneWriterAndTwoReaders :
    let s := (bench 16 [0xd0] [] []).setInput (triggerLine ++ [0x0A]) false
    let w := (bench 16 [0xd0] [] [(0, 0x73), (1, 0x75)]).setGets [(0, 0x73), (1, 0x75)]
      (triggerLine.drop 2 ++ [0x0A]) (some (triggerLine.take 2))
    let u := bench 16 [0x00410140] [] []
    (∃ t, step s = .next t ∧ t.escalated ≠ s.escalated) ∧ (∃ t, step w = .next t ∧ t.escalated ≠ w.escalated) ∧
    (∀ reg, u.nextInstr ≠ some (.gets reg) ∧ u.nextInstr ≠ some (.puts reg)) ∧ ∃ t, step u = .next t ∧ t.pc = 1 := by
  refine ⟨of_stepTo (by decide), of_stepTo (by decide), fun reg => ?_, of_stepTo (by decide)⟩
  have h : (bench 16 [0x00410140] [] []).nextInstr = some (.puti 1 65) := by decide
  rw [h]
  exact ⟨nofun, nofun⟩

/-- Two `puts` in the Escalated state, PASS and then another string: the output grows by one copy. -/
theorem witness_EscalatedRunsOutputOnlySuccess :
    let s := (bench 16 [0x00c0, 0x01c0] [(0, 7), (1, 8)]
      [(7, 83), (8, 117), (9, 99), (10, 99), (11, 101), (12, 115), (13, 115), (14, 10)]).setEscalated true
    s.escalated = true ∧ (match run 2 s with | .next t => t.output == passString && t.pc == 2 | _ => false) = true := by
  decide

/-- A state with a `gets` that waits has the invariant, and steps: more input is there. -/
theorem witness_EveryStepKeepsTheInvariant :
    let s := (bench 16 [0xd0] [(0, 10)] [(10, 0x61)]).setGets [(10, 0x61)] [0x62, 0x0A] (some [0x61])
    s.Inv ∧ ∃ t, step s = .next t ∧ t.pc = 1 := by
  refine ⟨⟨by decide, by decide, by decide, by decide, by decide, fun line h => ?_⟩, of_stepTo (by decide)⟩
  cases (Option.some.inj h : [0x61] = line)
  exact ⟨by decide, by decide, by decide, 0, by decide, by decide⟩

/-- An admitted launch with initial cells, and the two host moves on a state with the invariant. -/
theorem witness_LaunchAndHostMovesMeetTheInvariant :
    (tryLaunch 16 [0xd0] [(15, 1)]).wf = true ∧ waitBench.Inv ∧
    (waitBench.supplyInput [0x0A]).isSome = true ∧ waitBench.closeInput.isSome = true :=
  ⟨by decide, ⟨by decide, by decide, by decide, by decide, by decide, nofun⟩, by decide, by decide⟩

/-- A reachable state after a step, a supply of input and the end mark. -/
theorem witness_ReachableStatesMeetTheInvariant :
    ∃ s u v, Reachable s ∧ s.supplyInput [0x61] = some u ∧ u.closeInput = some v ∧ Reachable v := by
  let l : Launch := { tryLaunch 16 [0xd0] [] with inputClosed := false }
  have h : ∃ t, step (State.ofLaunch l) = .next t ∧ t.inputClosed = false := of_stepTo (by decide)
  obtain ⟨s, hs, ho⟩ := h
  have r : Reachable s := .step _ s (.reset l (by decide)) hs
  have hu : s.supplyInput [0x61] = some (s.setInput (s.input ++ [0x61]) false) := by simp [State.supplyInput, ho]
  have hv := show (s.setInput (s.input ++ [0x61]) false).closeInput = some _ from rfl
  exact ⟨s, _, _, r, hu, hv, .close _ _ (.supply _ _ _ r hu) hv⟩

theorem witness_ResetLeavesTheListedValues :
    (tryLaunch 1 [0] [(0, 7)]).wf = true ∧ Launch.reference.wf = true := by decide

/-- One launch for each disjunct. -/
theorem witness_BadLaunchIsRefused :
    ({ tryLaunch 16 [0] [] with codeSize := 5 } : Launch).codeSize % 4 ≠ 0 ∧
    (let l : Launch := { tryLaunch 16 [0] [] with codeSize := 8 }; l.codeSize ≠ 4 * l.code.length) ∧
    2 ^ 30 - 1 < (tryLaunch 16 (List.replicate (2 ^ 30) 0) []).code.length ∧
    (tryLaunch 0 [] []).heapSize = 0 ∧ 2 ^ 32 < (tryLaunch (2 ^ 32 + 1) [] []).heapSize := by
  refine ⟨by decide, by decide, ?_, by decide, by decide⟩
  show 2 ^ 30 - 1 < (List.replicate (2 ^ 30) (0 : Word)).length
  rw [List.length_replicate]
  omega

/-- Halted, each fault, and running. -/
theorem witness_ExitCodeTellsHaltFromFault :
    let s := bench 16 [0] [] []
    (s.stopRunning.fault = 0 ∧ s.stopRunning.running = false) ∧
    ((s.raise .illegalInstruction).fault ≠ 0 ∧ (s.raise .heapSegFault).fault ≠ 0 ∧ (s.raise .codeSegFault).fault ≠ 0) ∧
    (s.fault = 0 ∧ s.running = true) := by decide

/-- A `load` that faults, and a `gets` that does. -/
theorem witness_FaultsArePrecise :
    let s := bench 16 [0x10] [(0, 16)] []
    let u := (bench 16 [0xd0] [(0, 15)] []).setInput [0x61, 0x62] true
    (s.fault = 0 ∧ ∃ t, step s = .next t ∧ t.fault ≠ 0) ∧ (u.fault = 0 ∧ ∃ t, step u = .next t ∧ t.fault ≠ 0) :=
  ⟨⟨by decide, of_stepTo (by decide)⟩, by decide, of_stepTo (by decide)⟩

/-- A step for each of the three codes. -/
theorem witness_EachFaultHasItsCauses :
    let s := bench 16 [0xf0] [] []
    let u := bench 16 [0x10] [(0, 16)] []
    let v := bench 16 [0x01b0] [] []
    (s.fault = 0 ∧ ∃ t, step s = .next t ∧ t.fault = 1) ∧ (u.fault = 0 ∧ ∃ t, step u = .next t ∧ t.fault = 2) ∧
    (v.fault = 0 ∧ ∃ t, step v = .next t ∧ t.fault = 3) :=
  ⟨⟨by decide, of_stepTo (by decide)⟩, ⟨by decide, of_stepTo (by decide)⟩, by decide, of_stepTo (by decide)⟩

theorem witness_OnlyHaltClearsRunning :
    let s := bench 16 [0] [] []
    ∃ t, step s = .next t ∧ t.running ≠ s.running := of_stepTo (by decide)

theorem witness_CodeAndHeapSizeNeverChange :
    (match run 3 (bench 16 [0x00410140, 0] [] []) with | .next t => t.pc == 2 && t.done | _ => false) = true := by decide

theorem witness_OutputGrowsOnlyByPuts :
    let s := bench 16 [0xc0] [] [(0, 0x41)]
    ∃ t, step s = .next t ∧ t.output = s.output ++ [0x41] := of_stepTo (by decide)

theorem witness_InputIsTakenInOrderByNormalGets :
    let s := (bench 16 [0xd0] [] []).setInput [0x61, 0x0A, 0x62] true
    ∃ t, step s = .next t ∧ s.input = [0x61, 0x0A] ++ t.input := of_stepTo (by decide)

/-- A `store` to the last cell, and a `gets` whose NUL goes there. -/
theorem witness_CellsChangeOnlyInsideTheHeap :
    let s := bench 16 [0x00010020] [(0, 15), (1, 3)] []
    let u := (bench 16 [0xd0] [(0, 15)] [(15, 9)]).setInput [0x0A] true
    (∃ t, step s = .next t ∧ t.cell 15 ≠ s.cell 15) ∧ (∃ t, step u = .next t ∧ t.cell 15 ≠ u.cell 15) :=
  ⟨of_stepTo (by decide), of_stepTo (by decide)⟩

/-- Each of the eight instructions that write a register changes register 0. -/
theorem witness_RegistersChangeOnlyAtTheDestination :
    [0x010010, 0x010030, 0x010040, 0x02010050, 0x02010060, 0x02010070, 0x02010080, 0x01010090].all (fun w =>
      let s := bench 16 [w] [(1, 3), (2, 1)] [(3, 7)]
      stepTo s (fun t => t.reg 0 ≠ s.reg 0)) = true := by decide +kernel

end Sys2Proof.Tests
end

section
/-! SUPPORT. No instruction stops the model, so a step answers a next state wherever the configuration is admitted
(00_scope.md R7, 50_interfaces.md R190). -/

namespace Sys2Proof.Machine

/-- The shape every guarded instruction has: the guard chooses which next state is answered, never whether one is. -/
theorem exists_next_ite (p : Prop) [Decidable p] (t u : State) :
    ∃ v, (if p then .next t else .next u : Host.Outcome State Fault Refusal) = .next v :=
  ⟨if p then t else u, (apply_ite _ p t u).symm⟩

theorem execLoad_answers (dst src : RegNum) (s : State) : ∃ t, execLoad dst src s = .next t :=
  exists_next_ite _ _ _

theorem execStore_answers (dst src : RegNum) (s : State) : ∃ t, execStore dst src s = .next t :=
  exists_next_ite _ _ _

theorem execJump_answers (addr : Byte) (s : State) : ∃ t, execJump addr s = .next t :=
  exists_next_ite _ _ _

theorem execIte_answers (cond : RegNum) (t f : Byte) (s : State) : ∃ u, execIte cond t f s = .next u :=
  exists_next_ite _ _ _

/-- A string that runs off the heap is a fault, which is a next state too (44_io_trust_channel.md R162). -/
theorem execPuts_answers (reg : RegNum) (s : State) : ∃ t, execPuts reg s = .next t := by
  unfold execPuts
  split
  · exact ⟨_, rfl⟩
  · exact ⟨_, rfl⟩

/-- Every instruction answers a next state from every state: a fault is latched in FAULT (60_exceptions.md R213), a `gets`
that must wait keeps what it took, and no arm is without a meaning. -/
theorem exec_answers (i : Instr) (s : State) : ∃ t, exec i s = .next t := by
  cases i with
  | halt => exact ⟨_, rfl⟩
  | load dst src => exact execLoad_answers dst src s
  | store dst src => exact execStore_answers dst src s
  | move dst src => exact ⟨_, rfl⟩
  | puti dst imm => exact ⟨_, rfl⟩
  | add dst a b => exact ⟨_, rfl⟩
  | sub dst a b => exact ⟨_, rfl⟩
  | gt dst a b => exact ⟨_, rfl⟩
  | ge dst a b => exact ⟨_, rfl⟩
  | eq dst a b => exact ⟨_, rfl⟩
  | ite cond t f => exact execIte_answers cond t f s
  | jump addr => exact execJump_answers addr s
  | puts reg => exact execPuts_answers reg s
  | gets reg => exact ⟨_, rfl⟩

/-- Outside the admitted configurations the core is not started (50_interfaces.md R190). -/
theorem step_refused {s : State} (hc : ¬ s.configOk = true) : step s = .refused .badConfiguration :=
  if_neg hc

/-- In an admitted configuration a step answers a next state, whether the core is stopped, the fetch or the decoding
faults, or an instruction runs (40_step_dispatch.md R110, R111). -/
theorem step_answers {s : State} (hc : s.configOk = true) : ∃ t, step s = .next t := by
  rw [step, if_pos hc]
  split
  · split
    · exact ⟨_, rfl⟩
    · split
      · exact ⟨_, rfl⟩
      · next i _ => exact exec_answers i s
  · exact ⟨_, rfl⟩

/-- Settles O10: `State.configOk_iff` says what the guard of `step` tests, and `exec_answers` that nothing behind the
guard stops. -/
theorem stepAnswersExactlyOnAdmittedConfigurations :
    Obligations.StepAnswersExactlyOnAdmittedConfigurations := by
  intro s
  rw [← s.configOk_iff]
  exact ⟨⟨step_answers, fun ⟨_, h⟩ => (step_cases h).1⟩, step_refused⟩

end Sys2Proof.Machine
end

section
/-! SUPPORT. What one instruction can leave behind, said once for all 14 (40_step_dispatch.md R113): the frames below and
the invariant cite `exec_effect` instead of opening `exec`. -/

namespace Sys2Proof

/-- The register an instruction writes, if it writes one (10_state.md R22). -/
def Instr.dest : Instr → Option RegNum
  | .load dst _ | .move dst _ | .puti dst _ | .add dst _ _ | .sub dst _ _ | .gt dst _ _ | .ge dst _ _ | .eq dst _ _ =>
    some dst
  | .halt | .store _ _ | .ite _ _ _ | .jump _ | .puts _ | .gets _ => none

/-- The instructions that write a register, by their destination (10_state.md R22). -/
theorem Instr.dest_cases {i : Instr} {r : RegNum} (h : i.dest = some r) :
    ∃ (a b : RegNum) (imm : Byte), i = .load r a ∨ i = .move r a ∨ i = .puti r imm ∨ i = .add r a b ∨ i = .sub r a b ∨
      i = .gt r a b ∨ i = .ge r a b ∨ i = .eq r a b := by
  cases i with
  | load dst a => cases h; exact ⟨a, 0, 0, .inl rfl⟩
  | move dst a => cases h; exact ⟨a, 0, 0, .inr (.inl rfl)⟩
  | puti dst imm => cases h; exact ⟨0, 0, imm, .inr (.inr (.inl rfl))⟩
  | add dst a b => cases h; exact ⟨a, b, 0, by simp⟩
  | sub dst a b => cases h; exact ⟨a, b, 0, by simp⟩
  | gt dst a b => cases h; exact ⟨a, b, 0, by simp⟩
  | ge dst a b => cases h; exact ⟨a, b, 0, by simp⟩
  | eq dst a b => cases h; exact ⟨a, b, 0, by simp⟩
  | halt | store | ite | jump | puts | gets => cases h

end Sys2Proof

namespace Sys2Proof.Machine

/-- The forms of the state after an instruction (`exec_effect`). Which value is written, and which instruction takes which
fault, is said by its own `_cases` lemma; how a `gets` ends, by `execGets_cases`. -/
inductive Effect (s : State) : Instr → State → Prop
  /-- One register is written. -/
  | writesReg {i : Instr} {dst : RegNum} (v : Word) (hd : i.dest = some dst) : Effect s i (s.setReg dst v).advance
  /-- One cell of the heap is written. -/
  | writesCell {dst src : RegNum} (hi : heapIndex s dst < s.heapSize) :
    Effect s (.store dst src) (s.setCell (heapIndex s dst) (regOperand s src)).advance
  /-- Control goes to a word of the code buffer. -/
  | branches {i : Instr} (addr : Byte) (ha : addr.toNat < s.codeWords) : Effect s i (s.relocate (codeAddr addr))
  /-- The run ends. -/
  | halts : Effect s .halt s.stopRunning.advance
  /-- A string goes out. -/
  | prints {reg : RegNum} (str : List Byte) : Effect s (.puts reg) (s.emit str).advance
  /-- A string is suppressed. -/
  | suppresses {reg : RegNum} : Effect s (.puts reg) s.advance
  /-- A fault is taken. -/
  | faults {i : Instr} (k : FaultKind) : Effect s i (s.raise k)
  /-- A line is read, or waited for. -/
  | reads {reg : RegNum} {t : State} (h : execGets reg s = .next t) : Effect s (.gets reg) t

theorem exec_effect {i : Instr} {s t : State} (h : exec i s = .next t) : Effect s i t := by
  cases i with
  | halt => cases h; exact .halts
  | load dst src =>
    rcases execLoad_cases h with ⟨-, rfl⟩ | ⟨-, rfl⟩
    · exact .writesReg _ rfl
    · exact .faults _
  | store dst src =>
    rcases execStore_cases h with ⟨hi, rfl⟩ | ⟨-, rfl⟩
    · exact .writesCell hi
    · exact .faults _
  | move dst src => cases h; exact .writesReg _ rfl
  | puti dst imm => cases h; exact .writesReg _ rfl
  | add dst a b => cases h; exact .writesReg _ rfl
  | sub dst a b => cases h; exact .writesReg _ rfl
  | gt dst a b => cases h; exact .writesReg _ rfl
  | ge dst a b => cases h; exact .writesReg _ rfl
  | eq dst a b => cases h; exact .writesReg _ rfl
  | ite cond tgt els =>
    rcases execIte_cases h with ⟨ht, hf, rfl⟩ | ⟨-, rfl⟩
    · split
      · exact .branches tgt ht
      · exact .branches els hf
    · exact .faults _
  | jump addr =>
    rcases execJump_cases h with ⟨ha, rfl⟩ | ⟨-, rfl⟩
    · exact .branches addr ha
    · exact .faults _
  | puts reg =>
    rcases execPuts_cases h with ⟨-, rfl⟩ | ⟨str, -, rfl⟩
    · exact .faults _
    · split
      · exact .prints str
      · exact .suppresses
  | gets reg => exact .reads h

theorem State.nextInstr_none_of_fetch {s : State} (h : s.fetch = none) : s.nextInstr = none := by
  simp [State.nextInstr, h]

theorem State.nextInstr_none_of_illegal {s : State} {w : Word} {why : Illegal} (hf : s.fetch = some w)
    (hd : decode w = .illegal why) : s.nextInstr = none := by
  simp [State.nextInstr, hf, hd]

/-- All that a step can do, by the instruction at the counter: a stopped core keeps its state, without an instruction
there is a fault, and an instruction runs. -/
theorem step_by_instr {s t : State} (h : step s = .next t) :
    t = s ∨ (s.canStep = true ∧ s.nextInstr = none ∧ ∃ k, t = s.raise k) ∨
      (s.canStep = true ∧ ∃ i, s.nextInstr = some i ∧ exec i s = .next t) := by
  obtain ⟨-, ⟨-, rfl⟩ | ⟨hs, hf, rfl⟩ | ⟨hs, ⟨w, why, hf, hd⟩, rfl⟩ | ⟨hs, i, hi, he⟩⟩ := step_cases h
  · exact .inl rfl
  · exact .inr (.inl ⟨hs, State.nextInstr_none_of_fetch hf, _, rfl⟩)
  · exact .inr (.inl ⟨hs, State.nextInstr_none_of_illegal hf hd, _, rfl⟩)
  · exact .inr (.inr ⟨hs, i, hi, he⟩)

/-! The branches of `step`, from a core that steps (40_step_dispatch.md R110 to R113). -/

theorem step_of_fetch_none {s : State} (hc : s.configOk = true) (hs : s.canStep = true) (hf : s.fetch = none) :
    step s = .next (s.raise .codeSegFault) := by
  simp [step, hc, hs, hf]

theorem step_of_illegal {s : State} {w : Word} {why : Illegal} (hc : s.configOk = true) (hs : s.canStep = true)
    (hf : s.fetch = some w) (hd : decode w = .illegal why) : step s = .next (s.raise .illegalInstruction) := by
  simp [step, hc, hs, hf, hd]

theorem step_of_nextInstr {s : State} {i : Instr} (hc : s.configOk = true) (hs : s.canStep = true)
    (hi : s.nextInstr = some i) : step s = exec i s := by
  obtain ⟨w, hf, hd⟩ := (s.nextInstr_some_iff i).mp hi
  simp [step, hc, hs, hf, hd]

/-- The trigger touches `escalated` and the heap only (44_io_trust_channel.md R173). -/
theorem State.trigger_eq (s : State) (base : Nat) (line : List Byte) :
    s.trigger base line =
      (s.setEscalated (s.escalated || decide (line = triggerLine))).setHeap
        (if line = triggerLine then writeBytes s.heap base maskString else s.heap) := by
  by_cases h : line = triggerLine
  · subst h; simp [State.trigger_same]
  · simp [State.trigger_other s base h, h, State.setEscalated, State.setHeap]

/-! However a `gets` ends, it keeps what R170 does not name. -/

theorem GetsFrame.setGets (s : State) (heap : Memory) (input : List Byte) (waiting : Option (List Byte)) :
    GetsFrame s (s.setGets heap input waiting) :=
  ⟨⟨rfl, rfl⟩, fun _ => rfl, rfl, rfl, rfl⟩

theorem GetsFrame.advance {s t : State} (h : GetsFrame s t) : GetsFrame s t.advance :=
  ⟨⟨h.config.heapSize, h.config.code⟩, h.regs, h.running, h.inputClosed, h.output⟩

theorem GetsFrame.raise {s t : State} (h : GetsFrame s t) (k : FaultKind) : GetsFrame s (t.raise k) :=
  ⟨⟨h.config.heapSize, h.config.code⟩, h.regs, h.running, h.inputClosed, h.output⟩

theorem GetsFrame.trigger {s t : State} (h : GetsFrame s t) (base : Nat) (line : List Byte) :
    GetsFrame s (t.trigger base line) := by
  rw [State.trigger_eq]
  exact ⟨⟨h.config.heapSize, h.config.code⟩, h.regs, h.running, h.inputClosed, h.output⟩

theorem execGets_frame {reg : RegNum} {s t : State} (h : execGets reg s = .next t) : GetsFrame s t := by
  rcases execGets_cases h with ⟨-, -, rfl⟩ | ⟨-, -, rfl⟩ |
    ⟨-, line, ln, heap, -, -, -, -, ⟨rest, rfl, -⟩ | ⟨rest, rfl, -⟩ | ⟨rfl, -⟩⟩
  · exact (GetsFrame.setGets s _ _ _).advance
  · exact (GetsFrame.setGets s _ _ _).raise _
  · exact ((GetsFrame.setGets s _ _ _).trigger _ _).advance
  · exact (GetsFrame.setGets s _ _ _).raise _
  · exact GetsFrame.setGets s _ _ _

/-- A `gets` that changes `escalated` has read the whole of TRIGGER in the Normal state (44_io_trust_channel.md R173). -/
theorem execGets_escalates {reg : RegNum} {s t : State} (h : execGets reg s = .next t)
    (hne : t.escalated ≠ s.escalated) :
    s.escalated = false ∧ ∃ taken, s.getsLine.getD [] ++ taken = triggerLine ∧
      (s.input = taken ++ newline :: t.input ∨ (s.input = taken ∧ s.inputClosed = true ∧ t.input = [])) := by
  rcases execGets_cases h with ⟨-, -, rfl⟩ | ⟨-, -, rfl⟩ |
    ⟨hn, line, ln, heap, hl, -, -, -, ⟨rest, rfl, -, hin⟩ | ⟨rest, rfl, -⟩ | ⟨rfl, -⟩⟩
  · simp at hne
  · simp at hne
  · have htrig : line = triggerLine := by
      by_contra hline
      exact hne (by simp [State.trigger_other _ _ hline])
    rw [State.trigger_eq]
    exact ⟨hn, ln, hl ▸ htrig, hin⟩
  · simp at hne
  · simp at hne

/-- Only a `gets` changes `escalated`. -/
theorem Effect.escalated_eq {s t : State} {i : Instr} (h : Effect s i t) (hi : ∀ reg, i ≠ .gets reg) :
    t.escalated = s.escalated := by
  cases h with
  | reads h => exact absurd rfl (hi _)
  | _ => rfl

/-- Only `halt` changes `running`. -/
theorem Effect.running_eq {s t : State} {i : Instr} (h : Effect s i t) (hi : i ≠ .halt) : t.running = s.running := by
  cases h with
  | halts => exact absurd rfl hi
  | reads h => exact (execGets_frame h).running
  | _ => rfl

/-- Only the destination register changes. -/
theorem Effect.reg_eq {s t : State} {i : Instr} {r : RegNum} (h : Effect s i t) (hr : i.dest ≠ some r) :
    t.reg r = s.reg r := by
  cases h with
  | writesReg v hd => exact s.reg_setReg_other (fun hrd => hr (by rw [hd, hrd])) v
  | reads h => exact (execGets_frame h).regs r
  | _ => rfl

end Sys2Proof.Machine
end

section
/-! Every step keeps the invariant (10_state.md R25, R38). The one delicate clause is the `gets` in progress: an
instruction other than `gets` finds none, and a `gets` that waits again has its old and its new bytes in the buffer. -/

namespace Sys2Proof.Machine

/-! ### The code and the counter -/

theorem State.pc_lt_of_nextInstr {s : State} {i : Instr} (h : s.nextInstr = some i) : s.pc.toNat < s.codeWords := by
  obtain ⟨w, hf, -⟩ := (State.nextInstr_some_iff s i).mp h
  exact (List.getElem?_eq_some_iff.mp hf).1

/-- The advance from a word of the code buffer does not wrap, CODE_WORDS being below 2^30 (00_scope.md R7, D10). -/
theorem State.advance_pc_le {s : State} (hc : s.configOk = true) (h : s.pc.toNat < s.codeWords) :
    (s.pc + 1).toNat ≤ s.codeWords := by
  obtain ⟨-, -, hcode⟩ := s.configOk_iff.mp hc
  have hlen : s.codeWords = s.code.length := rfl
  bv_omega

/-! ### Bytes in the heap -/

/-- Bytes that fit, or no byte at all, list no cell outside the heap. -/
theorem writeBytes_within_of_fits {n : Nat} {bs : List Byte} {m : Memory} {i : Nat}
    (hf : bs = [] ∨ i + bs.length ≤ n) (h : m.within n = true) : (writeBytes m i bs).within n = true := by
  rcases hf with rfl | hf
  · exact h
  · exact writeBytes_within n bs m i hf h

/-- The part of a string that fits in the heap. -/
theorem take_fits (n base : Nat) (bs : List Byte) :
    bs.take (n - base) = [] ∨ base + (bs.take (n - base)).length ≤ n := by
  rcases Nat.lt_or_ge base n with h | h
  · right; rw [List.length_take]; omega
  · left; rw [Nat.sub_eq_zero_of_le h, List.take_zero]

/-- Bytes written behind bytes that stand in the heap make one longer string of both. -/
theorem State.holdsBytes_append {s t : State} {base : Nat} {old new : List Byte} (h : s.HoldsBytes base old)
    (ht : t.heap = writeBytes s.heap (base + old.length) new) : t.HoldsBytes base (old ++ new) := by
  intro k hk
  rw [State.cell, ht]
  rcases Nat.lt_or_ge k old.length with hlt | hge
  · rw [List.getElem_append_left hlt, read_writeBytes_outside _ _ _ _ (.inl (by omega))]
    exact h k hlt
  · rw [List.getElem_append_right hge, show base + k = base + old.length + (k - old.length) by omega]
    exact read_writeBytes_inside _ _ _ _ (by rw [List.length_append] at hk; omega)

/-! ### The invariant -/

/-- Outside a `gets` no line is in progress. -/
theorem State.Inv.getsLine_none {s : State} (h : s.Inv) (hi : ∀ reg, s.nextInstr ≠ some (.gets reg)) :
    s.getsLine = none := by
  cases hg : s.getsLine with
  | none => rfl
  | some line =>
    obtain ⟨reg, hreg, -⟩ := (h.waiting line hg).atGets
    exact absurd hreg (hi reg)

/-- What a `gets` has taken before this step, nothing where it begins, is a part of a line and stands in its buffer. -/
theorem State.Inv.taken_ok {s : State} {reg : RegNum} (h : s.Inv) (hi : s.nextInstr = some (.gets reg)) :
    newline ∉ s.getsLine.getD [] ∧ s.HoldsBytes (heapIndex s reg) (s.getsLine.getD []) ∧
      (s.getsLine.getD [] = [] ∨ heapIndex s reg + (s.getsLine.getD []).length ≤ s.heapSize) := by
  cases hg : s.getsLine with
  | none => exact ⟨by simp, fun k hk => absurd hk (by simp), .inl rfl⟩
  | some line =>
    have hw := h.waiting line hg
    obtain ⟨reg', hreg, hbytes⟩ := hw.atGets
    obtain rfl : reg' = reg := by rw [hi] at hreg; cases hreg; rfl
    refine ⟨hw.noNewline, fun k hk => (hbytes k hk).2, ?_⟩
    rcases Nat.eq_zero_or_pos line.length with h0 | hpos
    · exact .inl (List.eq_nil_of_length_eq_zero h0)
    · have := (hbytes (line.length - 1) (by omega)).1
      right
      simp only [Option.getD_some]
      omega

/-- A state without a `gets` in progress, under the configuration of one that has the invariant. -/
theorem State.Inv.of_idle {s t : State} (h : s.Inv) (hc : ConfigKept s t) (hwf : t.heap.wf = true)
    (hin : t.heap.within s.heapSize = true) (hpc : t.pc.toNat ≤ s.codeWords) (hhalt : t.running = false → t.fault = 0)
    (hg : t.getsLine = none) : t.Inv := by
  obtain ⟨hsize, hcode⟩ := hc
  have hwords : t.codeWords = s.codeWords := congrArg List.length hcode
  refine ⟨?_, hwf, hsize ▸ hin, hwords ▸ hpc, hhalt, fun line hl => ?_⟩
  · rw [State.configOk, hsize, hwords]; exact h.config
  · rw [hg] at hl; cases hl

/-- A fault in the state Run keeps the invariant where no `gets` is in progress (60_exceptions.md R213, R214). -/
theorem State.Inv.raise {s : State} (h : s.Inv) (hs : s.canStep = true) (hg : s.getsLine = none) (k : FaultKind) :
    (s.raise k).Inv := by
  have hrun : s.running = true := (s.canStep_iff.mp hs).1
  exact h.of_idle ⟨rfl, rfl⟩ h.heapForm h.heapRange h.pcRange (fun hr => absurd (hrun.symm.trans hr) (by decide)) hg

/-- The invariant after an instruction other than `gets`. -/
theorem Effect.inv {s t : State} {i : Instr} (h : Effect s i t) (hs : s.Inv) (hrun : s.canStep = true)
    (hi : s.nextInstr = some i) (hng : ∀ reg, i ≠ .gets reg) : t.Inv := by
  have hg : s.getsLine = none := hs.getsLine_none fun reg he => hng reg (Option.some.inj (hi.symm.trans he))
  have hpc : (s.pc + 1).toNat ≤ s.codeWords := s.advance_pc_le hs.config (State.pc_lt_of_nextInstr hi)
  cases h with
  | writesReg v hd => exact hs.of_idle ⟨rfl, rfl⟩ hs.heapForm hs.heapRange hpc hs.cleanHalt hg
  | writesCell hidx =>
    exact hs.of_idle ⟨rfl, rfl⟩ (Memory.wf_write _ _ _ hs.heapForm) (Memory.within_write _ _ _ _ hidx hs.heapRange)
      hpc hs.cleanHalt hg
  | branches addr ha =>
    exact hs.of_idle ⟨rfl, rfl⟩ hs.heapForm hs.heapRange (codeAddr_toNat addr ▸ Nat.le_of_lt ha) hs.cleanHalt hg
  | halts => exact hs.of_idle ⟨rfl, rfl⟩ hs.heapForm hs.heapRange hpc (fun _ => (s.canStep_iff.mp hrun).2) hg
  | prints str => exact hs.of_idle ⟨rfl, rfl⟩ hs.heapForm hs.heapRange hpc hs.cleanHalt hg
  | suppresses => exact hs.of_idle ⟨rfl, rfl⟩ hs.heapForm hs.heapRange hpc hs.cleanHalt hg
  | faults k => exact hs.raise hrun hg k
  | reads h => exact absurd rfl (hng _)

/-! ### `gets` -/

theorem State.Inv.advance {s : State} (h : s.Inv) (hg : s.getsLine = none) (hpc : s.pc.toNat < s.codeWords) :
    s.advance.Inv :=
  h.of_idle ⟨rfl, rfl⟩ h.heapForm h.heapRange (s.advance_pc_le h.config hpc) h.cleanHalt hg

/-- A `gets` that ends leaves no line in progress. -/
theorem State.Inv.setGets_none {s : State} {heap : Memory} (h : s.Inv) (hwf : heap.wf = true)
    (hin : heap.within s.heapSize = true) (input : List Byte) : (s.setGets heap input none).Inv :=
  h.of_idle ⟨rfl, rfl⟩ hwf hin h.pcRange h.cleanHalt rfl

theorem State.Inv.setGets_advance {s : State} {heap : Memory} (h : s.Inv) (hpc : s.pc.toNat < s.codeWords)
    (hwf : heap.wf = true) (hin : heap.within s.heapSize = true) (input : List Byte) :
    (s.setGets heap input none).advance.Inv :=
  (h.setGets_none hwf hin input).advance rfl hpc

theorem State.Inv.setGets_raise {s : State} {heap : Memory} (h : s.Inv) (hrun : s.canStep = true)
    (hwf : heap.wf = true) (hin : heap.within s.heapSize = true) (input : List Byte) (k : FaultKind) :
    ((s.setGets heap input none).raise k).Inv :=
  (h.setGets_none hwf hin input).raise hrun rfl k

/-- MASK is shorter than the line it overwrites, so it stays inside the heap (44_io_trust_channel.md R173). -/
theorem State.Inv.trigger {s : State} {base : Nat} {line : List Byte} (h : s.Inv) (hg : s.getsLine = none)
    (hfit : base + line.length < s.heapSize) : (s.trigger base line).Inv := by
  by_cases hl : line = triggerLine
  · subst hl
    have hmask : base + maskString.length ≤ s.heapSize := by
      simp only [triggerLine, maskString, List.length_cons, List.length_nil] at hfit ⊢
      omega
    rw [State.trigger_same]
    exact h.of_idle ⟨rfl, rfl⟩ (writeBytes_wf _ _ _ h.heapForm) (writeBytes_within _ _ _ _ hmask h.heapRange)
      h.pcRange h.cleanHalt hg
  · rw [State.trigger_other _ _ hl]; exact h

/-- A `gets` that waits keeps the invariant: its line so far has no newline and stands in its buffer. -/
theorem State.Inv.wait {s : State} {reg : RegNum} {ln : List Byte} (h : s.Inv) (hrun : s.canStep = true)
    (hn : s.escalated = false) (hi : s.nextInstr = some (.gets reg)) (hnl : newline ∉ ln)
    (hfit : ln = [] ∨ heapIndex s reg + (s.getsLine.getD [] ++ ln).length ≤ s.heapSize) (input : List Byte) :
    (s.setGets (writeBytes s.heap (heapIndex s reg + (s.getsLine.getD []).length) ln) input
      (some (s.getsLine.getD [] ++ ln))).Inv := by
  obtain ⟨holdnl, hold, holdfit⟩ := h.taken_ok hi
  have hlnfit : ln = [] ∨ heapIndex s reg + (s.getsLine.getD []).length + ln.length ≤ s.heapSize := by
    rwa [Nat.add_assoc, ← List.length_append]
  have hall : s.getsLine.getD [] ++ ln = [] ∨ heapIndex s reg + (s.getsLine.getD [] ++ ln).length ≤ s.heapSize := by
    rcases hfit with rfl | hfit
    · rwa [List.append_nil]
    · exact .inr hfit
  refine ⟨h.config, writeBytes_wf _ _ _ h.heapForm, writeBytes_within_of_fits hlnfit h.heapRange, h.pcRange,
    h.cleanHalt, fun line hline => ?_⟩
  obtain rfl : s.getsLine.getD [] ++ ln = line := Option.some.inj hline
  refine ⟨hrun, hn, by simp [holdnl, hnl], reg, hi, fun k hk => ⟨?_, State.holdsBytes_append hold rfl k hk⟩⟩
  rcases hall with hnil | hall
  · simp [hnil] at hk
  · exact Nat.lt_of_lt_of_le (Nat.add_lt_add_left hk _) hall

theorem execGets_inv {reg : RegNum} {s t : State} (h : execGets reg s = .next t) (hs : s.Inv)
    (hrun : s.canStep = true) (hi : s.nextInstr = some (.gets reg)) : t.Inv := by
  have hpc : s.pc.toNat < s.codeWords := State.pc_lt_of_nextInstr hi
  rcases execGets_cases h with ⟨-, hfit, rfl⟩ | ⟨-, -, rfl⟩ | ⟨hn, line, ln, heap, rfl, hnl, hfit, rfl, hend⟩
  · have hcred : heapIndex s reg + credString.length ≤ s.heapSize := hfit
    exact hs.setGets_advance hpc (writeBytes_wf _ _ _ hs.heapForm) (writeBytes_within _ _ _ _ hcred hs.heapRange) _
  · exact hs.setGets_raise hrun (writeBytes_wf _ _ _ hs.heapForm)
      (writeBytes_within_of_fits (take_fits _ _ _) hs.heapRange) _ _
  · have hwf := writeBytes_wf ln s.heap (heapIndex s reg + (s.getsLine.getD []).length) hs.heapForm
    have hin : (writeBytes s.heap (heapIndex s reg + (s.getsLine.getD []).length) ln).within s.heapSize = true :=
      writeBytes_within_of_fits (by rwa [Nat.add_assoc, ← List.length_append]) hs.heapRange
    rcases hend with ⟨rest, rfl, hnul, -⟩ | ⟨rest, rfl, -, -⟩ | ⟨rfl, -, -⟩
    · have hdone := hs.setGets_none (writeByte_wf _ _ nul hwf) (writeByte_within _ _ _ nul hnul hin) rest
      refine (hdone.trigger rfl hnul).advance ?_ ?_
      · rw [State.trigger_eq]; rfl
      · rw [State.trigger_eq]; exact hpc
    · exact hs.setGets_raise hrun hwf hin rest _
    · exact hs.wait hrun hn hi hnl hfit []

/-- Settles O42: `gets` by `execGets_inv`, the other instructions by `Effect.inv`. -/
theorem everyStepKeepsTheInvariant : Obligations.EveryStepKeepsTheInvariant := by
  intro s t hs h
  rcases step_by_instr h with rfl | ⟨hrun, hnone, k, rfl⟩ | ⟨hrun, i, hi, he⟩
  · exact hs
  · exact hs.raise hrun (hs.getsLine_none (by simp [hnone])) k
  · by_cases hg : ∃ reg, i = .gets reg
    · obtain ⟨reg, rfl⟩ := hg
      exact execGets_inv he hs hrun hi
    · exact (exec_effect he).inv hs hrun hi (fun reg hreg => hg ⟨reg, hreg⟩)

/-! ### Reset and the host's moves -/

theorem launch_wf_iff (l : Launch) :
    l.wf = true ↔ (State.ofLaunch l).configOk = true ∧ l.codeSize = 4 * l.code.length ∧ l.initHeap.wf = true ∧
      l.initHeap.within l.heapSize = true := by
  simp [Launch.wf, State.configOk, State.codeWords, and_assoc]

theorem State.ofLaunch_inv {l : Launch} (h : l.wf = true) : (State.ofLaunch l).Inv := by
  obtain ⟨hconfig, -, hheap, hin⟩ := (launch_wf_iff l).mp h
  exact ⟨hconfig, hheap, hin, Nat.zero_le _, fun hr => absurd hr (by simp), fun line hl => absurd hl (by simp)⟩

/-- No part of the invariant is about the input, so what the host does to it keeps them all. -/
theorem State.Inv.setInput {s : State} (h : s.Inv) (input : List Byte) (closed : Bool) :
    (s.setInput input closed).Inv := by
  refine ⟨h.config, h.heapForm, h.heapRange, h.pcRange, h.cleanHalt, fun line hl => ?_⟩
  obtain ⟨hrun, hn, hnl, hat⟩ := h.waiting line hl
  exact ⟨hrun, hn, hnl, hat⟩

/-- A host's move on the input is a `setInput` (50_interfaces.md R192). -/
theorem State.supplyInput_some {s t : State} {bs : List Byte} (h : s.supplyInput bs = some t) :
    t = s.setInput (s.input ++ bs) false := by
  unfold State.supplyInput at h
  split at h
  · cases h
  · exact (Option.some.inj h).symm

theorem State.closeInput_some {s t : State} (h : s.closeInput = some t) : t = s.setInput s.input true := by
  unfold State.closeInput at h
  split at h
  · cases h
  · exact (Option.some.inj h).symm

/-- Settles O44: `State.ofLaunch_inv` for reset, `State.Inv.setInput` for either move of the host. -/
theorem launchAndHostMovesMeetTheInvariant : Obligations.LaunchAndHostMovesMeetTheInvariant := by
  refine ⟨fun l => State.ofLaunch_inv, fun s t bs hs h => ?_, fun s t hs h => ?_⟩
  · rw [State.supplyInput_some h]; exact hs.setInput _ _
  · rw [State.closeInput_some h]; exact hs.setInput _ _

/-- Settles O43: the reference launch is admitted. -/
theorem resetStateMeetsTheInvariant : Obligations.ResetStateMeetsTheInvariant :=
  State.ofLaunch_inv (by decide : Launch.reference.wf = true)

theorem launch_of_wf {l : Launch} (h : l.wf = true) : launch l = .next (State.ofLaunch l) := if_pos h

/-- Settles O46: an admitted launch answers `State.ofLaunch`, whatever state the core was in. -/
theorem resetLeavesTheListedValues : Obligations.ResetLeavesTheListedValues := by
  refine ⟨fun l h => ⟨State.ofLaunch l, launch_of_wf h, rfl, rfl, rfl, rfl, rfl, rfl, rfl, rfl, rfl, rfl, rfl, rfl,
    fun _ => launch_of_wf h⟩, rfl, rfl, rfl, fun r => ?_, fun _ => rfl⟩
  exact Vector.getElem_replicate r.isLt

end Sys2Proof.Machine
end

section
/-! Who changes the registers, `running` and `escalated`, and who reads `escalated` (10_state.md R22, R27, R28). -/

namespace Sys2Proof.Machine

/-! ### An instruction that is neither `gets` nor `puts` does the same whatever `escalated` holds -/

/-- A guard that does not read the bit, over two states that each keep it, keeps it. -/
theorem ite_next_setEscalated {p : Prop} [Decidable p] {u v t : State} (b : Bool)
    (h : (if p then .next u else .next v : Host.Outcome State Fault Refusal) = .next t) :
    (if p then .next (u.setEscalated b) else .next (v.setEscalated b) : Host.Outcome State Fault Refusal) =
      .next (t.setEscalated b) := by
  split at h
  · next hp => cases h; rw [if_pos hp]
  · next hp => cases h; rw [if_neg hp]

theorem exec_setEscalated {i : Instr} {s t : State} (b : Bool) (h : exec i s = .next t)
    (hi : ∀ reg, i ≠ .gets reg ∧ i ≠ .puts reg) : exec i (s.setEscalated b) = .next (t.setEscalated b) := by
  cases i with
  | halt => cases h; rfl
  | load dst src => exact ite_next_setEscalated b h
  | store dst src => exact ite_next_setEscalated b h
  | move dst src => cases h; rfl
  | puti dst imm => cases h; rfl
  | add dst x y => cases h; rfl
  | sub dst x y => cases h; rfl
  | gt dst x y => cases h; rfl
  | ge dst x y => cases h; rfl
  | eq dst x y => cases h; rfl
  | ite cond tgt els => exact ite_next_setEscalated b h
  | jump addr => exact ite_next_setEscalated b h
  | puts reg => exact absurd rfl (hi reg).2
  | gets reg => exact absurd rfl (hi reg).1

/-- A step reads `escalated` in `gets` and `puts` only. -/
theorem step_setEscalated {s t : State} (b : Bool) (h : step s = .next t)
    (hi : ∀ reg, s.nextInstr ≠ some (.gets reg) ∧ s.nextInstr ≠ some (.puts reg)) :
    step (s.setEscalated b) = .next (t.setEscalated b) := by
  obtain ⟨hc, ⟨hs, rfl⟩ | ⟨hs, hf, rfl⟩ | ⟨hs, ⟨w, why, hf, hd⟩, rfl⟩ | ⟨hs, i, hni, he⟩⟩ := step_cases h
  · exact step_stopped (s := t.setEscalated b) hc hs
  · exact step_of_fetch_none (s := s.setEscalated b) hc hs hf
  · exact step_of_illegal (s := s.setEscalated b) hc hs hf hd
  · rw [step_of_nextInstr (s := s.setEscalated b) hc hs hni]
    exact exec_setEscalated b he fun reg =>
      ⟨fun hg => (hi reg).1 (hg ▸ hni), fun hp => (hi reg).2 (hp ▸ hni)⟩

/-! ### The statements -/

/-- A step that changes `escalated` runs a `gets`. -/
theorem step_escalates {s t : State} (h : step s = .next t) (hne : t.escalated ≠ s.escalated) :
    ∃ reg, s.nextInstr = some (.gets reg) ∧ execGets reg s = .next t := by
  rcases step_by_instr h with rfl | ⟨-, -, k, rfl⟩ | ⟨-, i, hi, he⟩
  · exact absurd rfl hne
  · exact absurd rfl hne
  · by_cases hg : ∃ reg, i = .gets reg
    · obtain ⟨reg, rfl⟩ := hg
      exact ⟨reg, hi, he⟩
    · exact absurd ((exec_effect he).escalated_eq fun reg hreg => hg ⟨reg, hreg⟩) hne

/-- Settles O40: the writer by `step_escalates` and `execGets_escalates`, the readers by `step_setEscalated`. -/
theorem escalatedBitHasOneWriterAndTwoReaders : Obligations.EscalatedBitHasOneWriterAndTwoReaders := by
  refine ⟨fun l => rfl, fun s t h hne => ?_, fun s t b hi h => step_setEscalated b h hi⟩
  obtain ⟨reg, hi, hg⟩ := step_escalates h hne
  obtain ⟨hnormal, taken, hline, hinput⟩ := execGets_escalates hg hne
  exact ⟨hnormal, reg, taken, hi, hline, hinput⟩

/-- Settles O51, by `Effect.running_eq`. -/
theorem onlyHaltClearsRunning : Obligations.OnlyHaltClearsRunning := by
  intro s t h hne
  rcases step_by_instr h with rfl | ⟨-, -, k, rfl⟩ | ⟨hs, i, hi, he⟩
  · exact absurd rfl hne
  · exact absurd rfl hne
  · obtain ⟨hrun, hfault⟩ := s.canStep_iff.mp hs
    obtain rfl : i = .halt := by
      by_contra hhalt
      exact hne ((exec_effect he).running_eq hhalt)
    obtain rfl : s.stopRunning.advance = t := Host.Outcome.next.inj he
    exact ⟨hrun, rfl, hi, hfault, hfault⟩

/-- Settles O56: by `Effect.reg_eq` a register that changes is the destination, and `Instr.dest_cases` lists who has one. -/
theorem registersChangeOnlyAtTheDestination : Obligations.RegistersChangeOnlyAtTheDestination := by
  intro s t r h hne
  rcases step_by_instr h with rfl | ⟨-, -, k, rfl⟩ | ⟨-, i, hi, he⟩
  · exact absurd rfl hne
  · exact absurd rfl hne
  · have hd : i.dest = some r := by
      by_contra hd
      exact hne ((exec_effect he).reg_eq hd)
    simpa only [hi, Option.some.injEq] using Instr.dest_cases hd

end Sys2Proof.Machine
end

section
/-! Data memory: which cells a step changes, what `load` and `store` do on either side of HEAP_SIZE, and what no run
changes (20_memory.md R51, R54, R55, R66). -/

namespace Sys2Proof.Machine

/-! ### The cells a `gets` writes: from its index on, inside the heap -/

/-- Bytes written at or after an index, and inside the heap, leave the cells before that index and beyond the heap. -/
theorem read_writeBytes_of_fits {n base i j : Nat} {bs : List Byte} (m : Memory) (hi : base ≤ i)
    (hf : bs = [] ∨ i + bs.length ≤ n) (hj : j < base ∨ base + (n - base) ≤ j) :
    (writeBytes m i bs).read j = m.read j := by
  rcases hf with rfl | hf
  · rfl
  · exact read_writeBytes_outside bs m i j (by omega)

/-- The overwrite with MASK stays in the buffer of the line just read, which is longer (44_io_trust_channel.md R173). -/
theorem State.cell_trigger (s : State) {n base j : Nat} {line : List Byte} (hfit : base + line.length < n)
    (hj : j < base ∨ base + (n - base) ≤ j) : (s.trigger base line).cell j = s.cell j := by
  by_cases hl : line = triggerLine
  · subst hl
    have hshort : maskString.length ≤ triggerLine.length := by decide
    rw [State.trigger_same]
    exact read_writeBytes_of_fits s.heap (Nat.le_refl base) (.inr (by omega)) hj
  · rw [State.trigger_other s base hl]

theorem execGets_cells {reg : RegNum} {s t : State} (h : execGets reg s = .next t) :
    CellsKeptOutside (heapIndex s reg) (s.heapSize - heapIndex s reg) s t := by
  intro j hj
  rcases execGets_cases h with ⟨-, hfit, rfl⟩ | ⟨-, -, rfl⟩ | ⟨-, line, ln, heap, rfl, -, hfit, rfl, hend⟩
  · rw [State.cell_advance, State.cell_setGets]
    exact read_writeBytes_of_fits s.heap (Nat.le_refl _) (.inr hfit) hj
  · rw [State.cell_raise, State.cell_setGets]
    exact read_writeBytes_of_fits s.heap (Nat.le_refl _) (take_fits _ _ _) hj
  · have hline : (writeBytes s.heap (heapIndex s reg + (s.getsLine.getD []).length) ln).read j = s.cell j :=
      read_writeBytes_of_fits s.heap (Nat.le_add_right _ _)
        (by rwa [Nat.add_assoc, ← List.length_append]) hj
    rcases hend with ⟨rest, rfl, hnul, -⟩ | ⟨rest, rfl, -⟩ | ⟨rfl, -⟩
    · rw [State.cell_advance, State.cell_trigger _ hnul hj, State.cell_setGets, read_writeByte, if_neg (by omega)]
      exact hline
    · exact hline
    · exact hline

/-! ### The cells any instruction changes -/

/-- A cell that reads differently is in the heap, and is the cell of a `store` or in the buffer of a `gets`. -/
theorem Effect.cell_ne {s t : State} {i : Instr} {j : Nat} (h : Effect s i t) (hne : t.cell j ≠ s.cell j) :
    j < s.heapSize ∧ ((∃ dst src, i = .store dst src ∧ j = heapIndex s dst) ∨
      ∃ reg, i = .gets reg ∧ heapIndex s reg ≤ j) := by
  cases h with
  | @writesCell dst src hidx =>
    obtain rfl : j = heapIndex s dst := by
      by_contra hj
      exact hne (by rw [State.cell_advance, State.cell_setCell, if_neg hj])
    exact ⟨hidx, .inl ⟨dst, src, rfl, rfl⟩⟩
  | @reads reg _ h =>
    have hin : ¬(j < heapIndex s reg ∨ heapIndex s reg + (s.heapSize - heapIndex s reg) ≤ j) :=
      fun hj => hne (execGets_cells h j hj)
    exact ⟨by omega, .inr ⟨reg, rfl, by omega⟩⟩
  | _ => exact absurd rfl hne

/-- Settles O55, by `Effect.cell_ne`: without an instruction no cell changes. -/
theorem cellsChangeOnlyInsideTheHeap : Obligations.CellsChangeOnlyInsideTheHeap := by
  intro s t j h hne
  rcases step_by_instr h with rfl | ⟨-, -, k, rfl⟩ | ⟨-, i, hi, he⟩
  · exact absurd rfl hne
  · exact absurd rfl hne
  · simp only [hi, Option.some.injEq]
    exact (exec_effect he).cell_ne hne

/-! ### The configuration and the code buffer -/

theorem ConfigKept.refl (s : State) : ConfigKept s s := ⟨rfl, rfl⟩

theorem ConfigKept.trans {s t u : State} (h₁ : ConfigKept s t) (h₂ : ConfigKept t u) : ConfigKept s u :=
  ⟨h₂.heapSize.trans h₁.heapSize, h₂.code.trans h₁.code⟩

theorem Effect.configKept {s t : State} {i : Instr} (h : Effect s i t) : ConfigKept s t := by
  cases h with
  | reads h => exact (execGets_frame h).config
  | _ => exact ⟨rfl, rfl⟩

theorem step_configKept {s t : State} (h : step s = .next t) : ConfigKept s t := by
  rcases step_by_instr h with rfl | ⟨-, -, k, rfl⟩ | ⟨-, i, -, he⟩
  · exact .refl t
  · exact ⟨rfl, rfl⟩
  · exact (exec_effect he).configKept

/-- Settles O52: `step_configKept` along the run. -/
theorem codeAndHeapSizeNeverChange : Obligations.CodeAndHeapSizeNeverChange :=
  fun _ _ _ h => run_induction ConfigKept.refl (fun _ _ _ hstep hrest => (step_configKept hstep).trans hrest) h

/-! ### `load` and `store` on either side of HEAP_SIZE (41_data_movement.md R132, R133) -/

theorem exec_load_inHeap {s : State} (dst : RegNum) {src : RegNum} (h : (s.reg src).toNat < s.heapSize) :
    exec (.load dst src) s = .next (s.setReg dst (s.cell (s.reg src).toNat)).advance :=
  if_pos ((s.inHeap_iff _).mpr h)

theorem exec_load_outside {s : State} (dst : RegNum) {src : RegNum} (h : s.heapSize ≤ (s.reg src).toNat) :
    exec (.load dst src) s = .next (s.raise .heapSegFault) :=
  if_neg fun hin => Nat.not_lt_of_le h ((s.inHeap_iff _).mp hin)

theorem exec_store_inHeap {s : State} {dst : RegNum} (src : RegNum) (h : (s.reg dst).toNat < s.heapSize) :
    exec (.store dst src) s = .next (s.setCell (s.reg dst).toNat (s.reg src)).advance :=
  if_pos ((s.inHeap_iff _).mpr h)

theorem exec_store_outside {s : State} {dst : RegNum} (src : RegNum) (h : s.heapSize ≤ (s.reg dst).toNat) :
    exec (.store dst src) s = .next (s.raise .heapSegFault) :=
  if_neg fun hin => Nat.not_lt_of_le h ((s.inHeap_iff _).mp hin)

/-- Settles O17: the index is still inside the heap, and the cell still holds what `store` wrote. -/
theorem storeThenLoadGivesTheValueBack : Obligations.StoreThenLoadGivesTheValueBack := by
  intro s t u dst src dst' src' hidx hstore hsize hcell hreg
  rw [exec_store_inHeap src hidx] at hstore
  cases hstore
  have hidx' : (u.reg src').toNat < u.heapSize := by rw [hreg, hsize]; exact hidx
  refine ⟨_, exec_load_inHeap dst' hidx', ?_⟩
  calc (u.setReg dst' (u.cell (u.reg src').toNat)).advance.reg dst'
      = u.cell (s.reg dst).toNat := by rw [State.reg_advance, State.reg_setReg_same, hreg]
    _ = s.reg src := by rw [hcell, State.cell_advance, State.cell_setCell_same]

/-- Settles O18: index HEAP_SIZE is the first outside the heap, HEAP_SIZE - 1 the last inside. -/
theorem heapBoundaryIsExact : Obligations.HeapBoundaryIsExact := by
  intro s dst src
  refine ⟨fun h => exec_load_outside dst h.ge, fun h => exec_store_outside src h.ge, fun h => ?_, fun h => ?_⟩
  · have hlast : s.heapSize - 1 = (s.reg src).toNat := by omega
    refine ⟨_, exec_load_inHeap dst (by omega), rfl, ?_, fun _ => rfl⟩
    rw [hlast, State.reg_advance, State.reg_setReg_same]
  · have hlast : s.heapSize - 1 = (s.reg dst).toNat := by omega
    refine ⟨_, exec_store_inHeap src (by omega), rfl, ?_, fun j hj => ?_⟩
    · rw [hlast, State.cell_advance, State.cell_setCell_same]
    · rw [State.cell_advance, State.cell_setCell, if_neg (by omega)]

end Sys2Proof.Machine
end

section
/-! The encoder and the decoder are inverse to each other (30_encoding.md R83 to R86). Both go through
`Opcode.withFields`: every instruction is some operation with some fields, and its encoding keeps the fields which the
operation uses and zeroes the others, which the decoder drops. -/

namespace Sys2Proof

/-! ### Instructions as operations with fields -/

/-- Field number `n` of a canonical word: `a` where the operation uses that field, zero where it does not (R84). -/
def Opcode.usedField (op : Opcode) (n : Nat) (a : Byte) : Byte :=
  if n ≤ op.operandCount then a else 0

theorem Opcode.usedField_unused {op : Opcode} {n : Nat} (a : Byte) (h : op.operandCount < n) :
    op.usedField n a = 0 :=
  if_neg (Nat.not_le_of_lt h)

theorem Opcode.usedField_eq_self {op : Opcode} {n : Nat} {a : Byte} (h : n ≤ op.operandCount ∨ a = 0) :
    op.usedField n a = a := by
  rcases h with hn | rfl
  · exact if_pos hn
  · exact ite_self 0

/-- Every instruction is its operation with fields. -/
theorem Instr.exists_withFields (i : Instr) : ∃ a1 a2 a3 : Byte, i.opcode.withFields a1 a2 a3 = i := by
  cases i with
  | halt => exact ⟨0, 0, 0, rfl⟩
  | load dst src | store dst src | move dst src => exact ⟨fieldOfReg dst, fieldOfReg src, 0, rfl⟩
  | puti dst imm => exact ⟨fieldOfReg dst, imm, 0, rfl⟩
  | add dst a b | sub dst a b | gt dst a b | ge dst a b | eq dst a b =>
    exact ⟨fieldOfReg dst, fieldOfReg a, fieldOfReg b, rfl⟩
  | ite cond t f => exact ⟨fieldOfReg cond, t, f, rfl⟩
  | jump addr => exact ⟨addr, 0, 0, rfl⟩
  | puts reg | gets reg => exact ⟨fieldOfReg reg, 0, 0, rfl⟩

/-- The formats of R83: the encoding holds the tag and the fields used, and zero in the others. -/
theorem encode_withFields (op : Opcode) (a1 a2 a3 : Byte) :
    encode (op.withFields a1 a2 a3) =
      wordOfFields op.tag (op.usedField 1 a1) (op.usedField 2 a2) (op.usedField 3 a3) := by
  cases op <;> rfl

/-- The decoder does not read the fields an operation does not use (R84). -/
theorem Opcode.withFields_usedField (op : Opcode) (a1 a2 a3 : Byte) :
    op.withFields (op.usedField 1 a1) (op.usedField 2 a2) (op.usedField 3 a3) = op.withFields a1 a2 a3 := by
  cases op <;> rfl

/-! ### Encode, then decode -/

/-- Settles O1: the encoder zeroes only fields which the decoder drops. -/
theorem encodedInstructionsDecodeBack : Obligations.EncodedInstructionsDecodeBack := by
  intro i
  obtain ⟨a1, a2, a3, hi⟩ := i.exists_withFields
  rw [← hi, encode_withFields, decode_wordOfFields, Opcode.withFields_usedField]

/-! ### Canonical words -/

theorem canonicalWord_encode (i : Instr) : canonicalWord (encode i) = true := by
  obtain ⟨a1, a2, a3, hi⟩ := i.exists_withFields
  rw [← hi, encode_withFields]
  exact canonicalWord_wordOfFields _ _ _ _ (Opcode.usedField_unused a1) (Opcode.usedField_unused a2)
    (Opcode.usedField_unused a3)

/-- A canonical word has an operation's tag, and zeroing the fields that operation does not use changes nothing. -/
theorem exists_opcode_of_canonicalWord {w : Word} (h : canonicalWord w = true) :
    ∃ op : Opcode, op.tag = byte0 w ∧ op.usedField 1 (byte1 w) = byte1 w ∧
      op.usedField 2 (byte2 w) = byte2 w ∧ op.usedField 3 (byte3 w) = byte3 w := by
  unfold canonicalWord at h
  split at h
  · cases h
  · next op hop =>
    simp only [Bool.and_eq_true, Bool.or_eq_true, decide_eq_true_eq, beq_iff_eq] at h
    obtain ⟨⟨h1, h2⟩, h3⟩ := h
    exact ⟨op, tag_of_opcodeOfTag hop, Opcode.usedField_eq_self h1, Opcode.usedField_eq_self h2,
      Opcode.usedField_eq_self h3⟩

/-- Settles O2: a canonical word is the encoding of the instruction its own fields form. -/
theorem canonicalWordsAreTheEncodings : Obligations.CanonicalWordsAreTheEncodings := by
  intro w
  constructor
  · intro hw
    obtain ⟨op, htag, h1, h2, h3⟩ := exists_opcode_of_canonicalWord hw
    refine ⟨op.withFields (byte1 w) (byte2 w) (byte3 w), ?_⟩
    rw [encode_withFields, h1, h2, h3, htag, wordOfFields_bytes]
  · rintro ⟨i, rfl⟩
    exact canonicalWord_encode i

/-! ### Decoding by the tag -/

theorem byte1_eq_ofNat (w : Word) : byte1 w = BitVec.ofNat 8 (w.toNat / 2 ^ 8) :=
  BitVec.eq_of_toNat_eq ((byte1_toNat w).trans (BitVec.toNat_ofNat _ 8).symm)

theorem byte2_eq_ofNat (w : Word) : byte2 w = BitVec.ofNat 8 (w.toNat / 2 ^ 16) :=
  BitVec.eq_of_toNat_eq ((byte2_toNat w).trans (BitVec.toNat_ofNat _ 8).symm)

theorem byte3_eq_ofNat (w : Word) : byte3 w = BitVec.ofNat 8 (w.toNat / 2 ^ 24) :=
  BitVec.eq_of_toNat_eq ((byte3_toNat w).trans (BitVec.toNat_ofNat _ 8).symm)

/-- A word whose value ends in an operation's tag decodes to that operation, its fields read by division (R86). -/
theorem decode_of_mod_eq_tag {w : Word} (op : Opcode) (h : w.toNat % 256 = op.tag.toNat) :
    decode w = .insn (op.withFields (BitVec.ofNat 8 (w.toNat / 2 ^ 8)) (BitVec.ofNat 8 (w.toNat / 2 ^ 16))
      (BitVec.ofNat 8 (w.toNat / 2 ^ 24))) := by
  have htag : byte0 w = op.tag := BitVec.eq_of_toNat_eq ((byte0_toNat w).trans h)
  rw [← byte1_eq_ofNat, ← byte2_eq_ofNat, ← byte3_eq_ofNat, ← decode_wordOfFields, ← htag, wordOfFields_bytes]

/-- A word whose value ends in no operation's tag is illegal (R87, R88). -/
theorem decode_illegal_of_mod_ne_tag {w : Word} (h : ∀ op : Opcode, op.tag.toNat ≠ w.toNat % 256) :
    ∃ why, decode w = .illegal why := by
  obtain ⟨op, htag, -⟩ | ⟨why, -, hd⟩ := decode_cases w
  · exact absurd ((congrArg BitVec.toNat htag).trans (byte0_toNat w)) (h op)
  · exact ⟨why, hd⟩

/-- The table of tags (R85) lists every operation's. -/
theorem Opcode.tag_mem (op : Opcode) :
    op.tag.toNat ∈ [0x00, 0x10, 0x20, 0x30, 0x40, 0x50, 0x60, 0x70, 0x80, 0x90, 0xa0, 0xb0, 0xc0, 0xd0] := by
  cases op <;> decide

/-- Settles O3: a clause per operation by `decode_of_mod_eq_tag`, and no operation's tag is outside the list. -/
theorem everyWordDecodesByItsTag : Obligations.EveryWordDecodesByItsTag := by
  intro w
  exact ⟨decode_of_mod_eq_tag .halt, decode_of_mod_eq_tag .load, decode_of_mod_eq_tag .store,
    decode_of_mod_eq_tag .move, decode_of_mod_eq_tag .puti, decode_of_mod_eq_tag .add, decode_of_mod_eq_tag .sub,
    decode_of_mod_eq_tag .gt, decode_of_mod_eq_tag .ge, decode_of_mod_eq_tag .eq, decode_of_mod_eq_tag .ite,
    decode_of_mod_eq_tag .jump, decode_of_mod_eq_tag .puts, decode_of_mod_eq_tag .gets,
    fun hop => decode_illegal_of_mod_ne_tag fun op heq => hop (heq ▸ op.tag_mem)⟩

/-- Settles O4: each legal word by its operation and its bytes 1 to 3, `halt` with none of its fields zero; the two
illegal ones by their tags. -/
theorem spelledWordsDecode : Obligations.SpelledWordsDecode :=
  ⟨decode_wordOfFields .halt 0x56 0x34 0x12, decode_wordOfFields .move 3 7 0, decode_wordOfFields .store 0 1 0,
    decode_wordOfFields .sub 0 1 2, decode_wordOfFields .ite 0 3 6, decode_wordOfFields .gets 1 0 0, rfl, rfl⟩

end Sys2Proof
end

section
/-! The cycle of fetch, decode and dispatch (40_step_dispatch.md R110 to R112): a stopped core, a fetch on either side of
CODE_WORDS, and the word that `withFetchWord` places. -/

namespace Sys2Proof.Machine

/-! ### A stopped core -/

/-- Halted or Faulted, as 10_state.md R31 tells them: not in the state Run. -/
theorem State.canStep_eq_false_iff (s : State) : s.canStep = false ↔ s.running = false ∨ s.fault ≠ 0 := by
  rw [← Bool.not_eq_true, s.canStep_iff, Decidable.not_and_iff_or_not, Bool.not_eq_true]

theorem run_stopped {s : State} (hc : s.configOk = true) (hs : s.canStep = false) (k : Nat) : run k s = .next s := by
  induction k with
  | zero => rfl
  | succ k ih => rw [run_next k (step_stopped hc hs), ih]

/-- Settles O9: halted and faulted cores are those that do not step, and each of the `k` steps answers the state. -/
theorem stoppedCoreKeepsItsState : Obligations.StoppedCoreKeepsItsState :=
  fun k s hc hstop => run_stopped hc (s.canStep_eq_false_iff.mpr hstop) k

/-! ### The fetch -/

theorem State.nextInstr_of_fetch {s : State} {w : Word} {i : Instr} (hf : s.fetch = some w) (hd : decode w = .insn i) :
    s.nextInstr = some i :=
  (s.nextInstr_some_iff i).mpr ⟨w, hf, hd⟩

theorem State.fetch_eq_none_iff (s : State) : s.fetch = none ↔ s.code.length ≤ s.pc.toNat :=
  List.getElem?_eq_none_iff

/-- Settles O6: the obligation's word is the one fetched, so `exec` runs what it decodes to. -/
theorem stepRunsTheDecodedInstruction : Obligations.StepRunsTheDecodedInstruction :=
  fun s _ _ hc hrun hfault hf hd =>
    step_of_nextInstr hc (s.canStep_iff.mpr ⟨hrun, hfault⟩) (State.nextInstr_of_fetch hf hd)

/-- Settles O7: beyond the code there is no word to fetch, and raising CodeSegFault latches code 3 in FAULT. -/
theorem fetchBeyondTheCodeFaults : Obligations.FetchBeyondTheCodeFaults :=
  fun s hc hrun hfault hpc =>
    step_of_fetch_none hc (s.canStep_iff.mpr ⟨hrun, hfault⟩) (s.fetch_eq_none_iff.mpr hpc)

/-! ### The word that `withFetchWord` places -/

/-- Placing a word lengthens the buffer just enough to reach its index. -/
theorem placeWord_length (code : List Word) (i : Nat) (w : Word) :
    (placeWord code i w).length = max code.length (i + 1) := by
  simp only [placeWord, List.length_set, List.length_append, List.length_replicate]
  omega

theorem placeWord_getElem?_same (code : List Word) (i : Nat) (w : Word) : (placeWord code i w)[i]? = some w := by
  have hreach : i < (code ++ List.replicate (i + 1 - code.length) 0).length := by
    rw [List.length_append, List.length_replicate]
    omega
  exact List.getElem?_set_self hreach

theorem decodeTableWord_some_iff (nbits w : Nat) (i : Instr) :
    decodeTableWord nbits w = some i ↔ decode (wordOfTableBits nbits w) = .insn i := by
  unfold decodeTableWord
  split
  · next j hj => simp [hj]
  · next why hwhy => simp [hwhy]

theorem State.withFetchWord_canStep (s : State) (nbits w : Nat) : (s.withFetchWord nbits w).canStep = true := rfl

theorem State.withFetchWord_fetch (s : State) (nbits w : Nat) :
    (s.withFetchWord nbits w).fetch = some (wordOfTableBits nbits w) :=
  placeWord_getElem?_same s.code s.pc.toNat _

/-- A counter below the largest CODE_WORDS of 00_scope.md R7 leaves room for the placed word. -/
theorem State.withFetchWord_configOk {s : State} (nbits w : Nat) (hc : s.configOk = true)
    (hpc : s.pc.toNat < 2 ^ 30 - 1) : (s.withFetchWord nbits w).configOk = true := by
  obtain ⟨hpos, hsize, hcode⟩ := s.configOk_iff.mp hc
  have hlen : (s.withFetchWord nbits w).code.length ≤ 2 ^ 30 - 1 := by
    rw [State.withFetchWord, placeWord_length]
    exact Nat.max_le.mpr ⟨hcode, hpc⟩
  exact (State.configOk_iff _).mpr ⟨hpos, hsize, hlen⟩

/-- Settles O11: the placed word is fetched, by a core that steps, in a configuration that is still admitted. -/
theorem withFetchWordRunsItsWord : Obligations.WithFetchWordRunsItsWord :=
  fun s nbits w i hc hpc hd =>
    step_of_nextInstr (State.withFetchWord_configOk nbits w hc hpc) (s.withFetchWord_canStep nbits w)
      (State.nextInstr_of_fetch (s.withFetchWord_fetch nbits w) ((decodeTableWord_some_iff nbits w i).mp hd))

end Sys2Proof.Machine
end

section
/-! Register and heap data movement (41_data_movement.md R130 to R133): the words, the register or the cell each instruction
writes, and what it leaves unchanged. -/

namespace Sys2Proof

/-! ### The word of given fields, spelled as a sum (30_encoding.md R81) -/

theorem decode_ofNat_fields (op : Opcode) (a1 a2 a3 : Byte) :
    decode (BitVec.ofNat 32 (op.tag.toNat + a1.toNat * 2 ^ 8 + a2.toNat * 2 ^ 16 + a3.toNat * 2 ^ 24)) =
      .insn (op.withFields a1 a2 a3) := by
  rw [← wordOfFields_toNat, BitVec.ofNat_toNat, BitVec.setWidth_eq, decode_wordOfFields]

/-- The sum of the tag and two fields leaves byte 3 zero. -/
theorem decode_ofNat_two_fields (op : Opcode) (a1 a2 : Byte) :
    decode (BitVec.ofNat 32 (op.tag.toNat + a1.toNat * 2 ^ 8 + a2.toNat * 2 ^ 16)) = .insn (op.withFields a1 a2 0) := by
  simpa using decode_ofNat_fields op a1 a2 0

end Sys2Proof

namespace Sys2Proof.Machine

/-! ### Instructions that write a register and advance -/

theorem RegsKeptBut.setReg_advance (s : State) (dst : RegNum) (v : Word) :
    RegsKeptBut dst s (s.setReg dst v).advance :=
  fun _ hr => (State.reg_advance _ _).trans (s.reg_setReg_other hr v)

theorem OnlyRegsAndPc.setReg_advance (s : State) (dst : RegNum) (v : Word) :
    OnlyRegsAndPc s (s.setReg dst v).advance where
  config := ⟨rfl, rfl⟩
  control := ⟨rfl, rfl, rfl⟩
  cells := fun _ => rfl
  input := ⟨rfl, rfl, rfl⟩
  output := rfl

/-- The effect and the frame of every instruction that ends in a write of one register. -/
theorem exists_next_of_writesReg {i : Instr} {s : State} {dst : RegNum} {v : Word}
    (h : exec i s = .next (s.setReg dst v).advance) :
    ∃ t, exec i s = .next t ∧ t.reg dst = v ∧ RegsKeptBut dst s t ∧ t.pc = s.pc + 1 ∧ OnlyRegsAndPc s t :=
  ⟨_, h, s.reg_setReg_same dst v, .setReg_advance s dst v, rfl, .setReg_advance s dst v⟩

theorem exec_move (s : State) (dst src : RegNum) :
    exec (.move dst src) s = .next (s.setReg dst (s.reg src)).advance := rfl

theorem exec_puti (s : State) (dst : RegNum) (imm : Byte) :
    exec (.puti dst imm) s = .next (s.setReg dst (immOperand imm)).advance := rfl

/-- An immediate is zero-extended (00_scope.md R11). -/
theorem immOperand_toNat (imm : Byte) : (immOperand imm).toNat = imm.toNat :=
  BitVec.toNat_setWidth_of_le (by decide)

/-- Settles O12: the word from its fields, and a write of the source's old value. -/
theorem moveCopiesARegister : Obligations.MoveCopiesARegister :=
  fun s dst src =>
    ⟨decode_ofNat_two_fields .move (fieldOfReg dst) (fieldOfReg src), exists_next_of_writesReg (exec_move s dst src)⟩

/-- Settles O13: the word from its fields, and a write of the zero-extended immediate. -/
theorem putiZeroExtendsItsImmediate : Obligations.PutiZeroExtendsItsImmediate := by
  intro s dst imm
  obtain ⟨t, hexec, hdst, hframe⟩ := exists_next_of_writesReg (exec_puti s dst imm)
  have hvalue : (t.reg dst).toNat = imm.toNat := by rw [hdst, immOperand_toNat]
  exact ⟨decode_ofNat_two_fields .puti (fieldOfReg dst) imm, t, hexec, hvalue, hframe⟩

/-! ### The heap -/

/-- Settles O14: inside the heap, a write of the cell read at the source's old value. -/
theorem loadReadsTheWholeCell : Obligations.LoadReadsTheWholeCell :=
  fun _ dst _ hidx => exists_next_of_writesReg (exec_load_inHeap dst hidx)

theorem CellsKeptOutside.setCell_advance (s : State) (i : Nat) (v : Word) :
    CellsKeptOutside i 1 s (s.setCell i v).advance := by
  intro j hj
  have hne : j ≠ i := by omega
  rw [State.cell_advance, State.cell_setCell, if_neg hne]

/-- Settles O15: inside the heap `store` writes the cell at its index and advances, and nothing else. -/
theorem storeWritesTheOneCell : Obligations.StoreWritesTheOneCell := by
  intro s dst src hidx
  have hcell : (s.setCell (s.reg dst).toNat (s.reg src)).advance.cell (s.reg dst).toNat = s.reg src := by
    rw [State.cell_advance, State.cell_setCell_same]
  exact ⟨_, exec_store_inHeap src hidx, hcell, .setCell_advance s _ _, fun _ => rfl, rfl, ⟨rfl, rfl⟩, ⟨rfl, rfl, rfl⟩,
    ⟨rfl, rfl, rfl⟩, rfl⟩

/-- Settles O16: outside the heap both raise HeapSegFault, whose code is 2. -/
theorem heapIndexOutOfRangeFaults : Obligations.HeapIndexOutOfRangeFaults :=
  fun _ dst src => ⟨exec_load_outside dst, exec_store_outside src⟩

end Sys2Proof.Machine
end

section
/-! Arithmetic and comparison (42_arithmetic_compare.md R140 to R145). The five instructions share one word format and one
write of a register; what each delivers is said of its result function, away from the state. -/

namespace Sys2Proof.Machine

/-! ### The results as numbers -/

/-- Addition is exact, then narrowed (R140). -/
theorem addResult_toNat (x y : Word) : (addResult x y).toNat = (x.toNat + y.toNat) % 2 ^ 32 :=
  BitVec.toNat_ofNat _ _

/-- Subtraction is exact on the integers, then narrowed (R141). -/
theorem subResult_toNat (x y : Word) : ((subResult x y).toNat : Int) = ((x.toNat : Int) - (y.toNat : Int)) % 2 ^ 32 := by
  rw [subResult, BitVec.toNat_ofInt]
  exact Int.toNat_of_nonneg (Int.emod_nonneg _ (by decide))

theorem truthWord_decide (p : Prop) [Decidable p] : truthWord (decide p) = if p then 1 else 0 := by
  simp [truthWord]

theorem gtResult_eq (x y : Word) : gtResult x y = if x.toNat > y.toNat then 1 else 0 :=
  truthWord_decide _

theorem geResult_eq (x y : Word) : geResult x y = if x.toNat ≥ y.toNat then 1 else 0 :=
  truthWord_decide _

/-- Two words are the same when their values are, so all 32 bits take part (R144). -/
theorem eqResult_eq (x y : Word) : eqResult x y = if x.toNat = y.toNat then 1 else 0 := by
  have hbeq : (x == y) = decide (x.toNat = y.toNat) := by
    rw [beq_eq_decide, decide_eq_decide, BitVec.toNat_inj]
  rw [eqResult, hbeq, truthWord_decide]

/-! ### The laws between the comparisons (R145) -/

theorem gtResult_add_eqResult (x y : Word) :
    (gtResult x y).toNat + (eqResult x y).toNat = (geResult x y).toNat := by
  rw [gtResult_eq, eqResult_eq, geResult_eq]
  rcases lt_trichotomy x.toNat y.toNat with hlt | heq | hgt
  · simp [hlt.not_gt, hlt.ne, hlt.not_ge]
  · simp [heq]
  · simp [hgt, hgt.ne', hgt.le]

theorem gtResult_add_geResult_swap (x y : Word) : (gtResult x y).toNat + (geResult y x).toNat = 1 := by
  rw [gtResult_eq, geResult_eq]
  rcases Nat.lt_or_ge y.toNat x.toNat with hgt | hle
  · simp [hgt, hgt.not_ge]
  · simp [hle, hle.not_gt]

/-! ### The instructions -/

theorem exec_add (s : State) (dst a b : RegNum) :
    exec (.add dst a b) s = .next (s.setReg dst (addResult (s.reg a) (s.reg b))).advance := rfl

theorem exec_sub (s : State) (dst a b : RegNum) :
    exec (.sub dst a b) s = .next (s.setReg dst (subResult (s.reg a) (s.reg b))).advance := rfl

theorem exec_gt (s : State) (dst a b : RegNum) :
    exec (.gt dst a b) s = .next (s.setReg dst (gtResult (s.reg a) (s.reg b))).advance := rfl

theorem exec_ge (s : State) (dst a b : RegNum) :
    exec (.ge dst a b) s = .next (s.setReg dst (geResult (s.reg a) (s.reg b))).advance := rfl

theorem exec_eq (s : State) (dst a b : RegNum) :
    exec (.eq dst a b) s = .next (s.setReg dst (eqResult (s.reg a) (s.reg b))).advance := rfl

/-- What the written register holds, in whatever next state the instruction answers. -/
theorem reg_of_writesReg {i : Instr} {s t : State} {dst : RegNum} {v : Word}
    (hi : exec i s = .next (s.setReg dst v).advance) (h : exec i s = .next t) : t.reg dst = v := by
  cases hi.symm.trans h
  exact s.reg_setReg_same dst v

/-! ### The statements -/

/-- Settles O19: the word from its fields, and a write of the narrowed sum. -/
theorem addWrapsModuloTwoToThe32 : Obligations.AddWrapsModuloTwoToThe32 := by
  intro s dst a b
  obtain ⟨t, hexec, hdst, hframe⟩ := exists_next_of_writesReg (exec_add s dst a b)
  exact ⟨decode_ofNat_fields .add (fieldOfReg dst) (fieldOfReg a) (fieldOfReg b), t, hexec,
    hdst ▸ addResult_toNat _ _, hframe⟩

/-- Settles O20: the word from its fields, and a write of the narrowed difference. -/
theorem subWrapsModuloTwoToThe32 : Obligations.SubWrapsModuloTwoToThe32 := by
  intro s dst a b
  obtain ⟨t, hexec, hdst, hframe⟩ := exists_next_of_writesReg (exec_sub s dst a b)
  exact ⟨decode_ofNat_fields .sub (fieldOfReg dst) (fieldOfReg a) (fieldOfReg b), t, hexec,
    hdst ▸ subResult_toNat _ _, hframe⟩

/-- Settles O21: the word from its fields, and a write of 1 or 0 by the unsigned order. -/
theorem gtIsUnsignedGreater : Obligations.GtIsUnsignedGreater :=
  fun s dst a b => ⟨decode_ofNat_fields .gt (fieldOfReg dst) (fieldOfReg a) (fieldOfReg b),
    gtResult_eq (s.reg a) (s.reg b) ▸ exists_next_of_writesReg (exec_gt s dst a b)⟩

/-- Settles O22: the word from its fields, and a write of 1 or 0 by the unsigned order. -/
theorem geIsUnsignedGreaterOrEqual : Obligations.GeIsUnsignedGreaterOrEqual :=
  fun s dst a b => ⟨decode_ofNat_fields .ge (fieldOfReg dst) (fieldOfReg a) (fieldOfReg b),
    geResult_eq (s.reg a) (s.reg b) ▸ exists_next_of_writesReg (exec_ge s dst a b)⟩

/-- Settles O23: the word from its fields, and a write of 1 or 0 by equality of the values. -/
theorem eqComparesAllBits : Obligations.EqComparesAllBits :=
  fun s dst a b => ⟨decode_ofNat_fields .eq (fieldOfReg dst) (fieldOfReg a) (fieldOfReg b),
    eqResult_eq (s.reg a) (s.reg b) ▸ exists_next_of_writesReg (exec_eq s dst a b)⟩

/-- Settles O24: the four registers hold the results on the old sources, and the laws hold of the results. -/
theorem comparisonLawsHold : Obligations.ComparisonLawsHold := by
  intro s t u v w dst a b hgt heq hge hge'
  rw [reg_of_writesReg (exec_gt s dst a b) hgt, reg_of_writesReg (exec_eq s dst a b) heq,
    reg_of_writesReg (exec_ge s dst a b) hge, reg_of_writesReg (exec_ge s dst b a) hge']
  exact ⟨gtResult_add_eqResult _ _, gtResult_add_geResult_swap _ _⟩

end Sys2Proof.Machine
end

section
/-! Control flow (43_control_flow.md R150 to R153). What a branch leaves alone is said of `State.relocate`, and what ends a
run of `running` and FAULT; the instructions only say when each is reached. -/

namespace Sys2Proof.Machine

/-! ### Where control goes -/

/-- A relocation writes the counter and nothing else. -/
theorem BranchFrame.relocate (s : State) (w : Word) : BranchFrame s (s.relocate w) where
  config := ⟨rfl, rfl⟩
  regs := fun _ => rfl
  control := ⟨rfl, rfl, rfl⟩
  cells := fun _ => rfl
  input := ⟨rfl, rfl, rfl⟩
  output := rfl

theorem not_codeTargetOk_iff (s : State) (addr : Byte) : ¬ codeTargetOk s addr = true ↔ s.codeWords ≤ addr.toNat := by
  rw [codeTargetOk_iff, Nat.not_lt]

/-! ### The instructions on either side of CODE_WORDS -/

theorem exec_jump_inCode {s : State} {addr : Byte} (h : addr.toNat < s.codeWords) :
    exec (.jump addr) s = .next (s.relocate (codeAddr addr)) :=
  if_pos ((codeTargetOk_iff s addr).mpr h)

theorem exec_jump_outside {s : State} {addr : Byte} (h : s.codeWords ≤ addr.toNat) :
    exec (.jump addr) s = .next (s.raise .codeSegFault) :=
  if_neg ((not_codeTargetOk_iff s addr).mpr h)

/-- The condition is unsigned, so "greater than zero" is "not zero" (R151). -/
theorem exec_ite_inCode {s : State} (cond : RegNum) {tgt els : Byte} (ht : tgt.toNat < s.codeWords)
    (he : els.toNat < s.codeWords) :
    exec (.ite cond tgt els) s = .next (s.relocate (codeAddr (if s.reg cond = 0 then els else tgt))) := by
  have hboth : (codeTargetOk s tgt && codeTargetOk s els) = true :=
    Bool.and_eq_true_iff.mpr ⟨(codeTargetOk_iff s tgt).mpr ht, (codeTargetOk_iff s els).mpr he⟩
  refine (if_pos hboth).trans ?_
  by_cases hzero : s.reg cond = 0
  · rw [regOperand, hzero, if_pos rfl]
    rfl
  · have hpos : (s.reg cond).toNat > 0 := Nat.pos_of_ne_zero fun h => hzero (BitVec.eq_of_toNat_eq h)
    rw [regOperand, if_pos hpos, if_neg hzero]

/-- Both targets are tested before the condition selects one (D13). -/
theorem exec_ite_outside {s : State} (cond : RegNum) {tgt els : Byte}
    (h : s.codeWords ≤ tgt.toNat ∨ s.codeWords ≤ els.toNat) :
    exec (.ite cond tgt els) s = .next (s.raise .codeSegFault) := by
  refine if_neg fun hboth => ?_
  obtain ⟨ht, he⟩ := Bool.and_eq_true_iff.mp hboth
  rcases h with hbad | hbad
  · exact (not_codeTargetOk_iff s tgt).mpr hbad ht
  · exact (not_codeTargetOk_iff s els).mpr hbad he

/-! ### The end of a run (60_exceptions.md R217) -/

theorem State.done_of_not_running {s : State} (h : s.running = false) : s.done = true := by
  simp [State.done, h]

theorem State.exitCode_of_halted {s : State} (hr : s.running = false) (hf : s.fault = 0) : s.exitCode = some 0 := by
  rw [State.exitCode, if_pos (State.done_of_not_running hr), if_pos hf]

/-! ### The statements -/

/-- Settles O25: the target is tested against CODE_WORDS, and the fault's code is 3. -/
theorem jumpGoesToItsTargetOrFaults : Obligations.JumpGoesToItsTargetOrFaults :=
  fun s addr => ⟨fun h => ⟨_, exec_jump_inCode h, codeAddr_toNat addr, .relocate s _⟩, exec_jump_outside⟩

/-- Settles O26: the counter gets the address the register selects. -/
theorem iteSelectsItsTarget : Obligations.IteSelectsItsTarget := by
  intro s cond tgt els ht he
  refine ⟨_, exec_ite_inCode cond ht he, ?_, .relocate s _⟩
  rw [State.relocate_pc, codeAddr_toNat, apply_ite BitVec.toNat]

/-- Settles O27: either bad target is enough to fail the test, and the fault's code is 3. -/
theorem iteFaultsOnEitherBadTarget : Obligations.IteFaultsOnEitherBadTarget :=
  fun _ cond _ _ => exec_ite_outside cond

/-- Settles O28: `halt` is one write of `running` and the advance, so a fault-free state ends halted. -/
theorem haltStopsCleanly : Obligations.HaltStopsCleanly := by
  intro s
  have hrunning : s.stopRunning.advance.running = false := rfl
  exact ⟨s.stopRunning.advance, rfl, hrunning, rfl, rfl, rfl, ⟨rfl, rfl⟩, fun _ => rfl, fun _ => rfl, ⟨rfl, rfl, rfl⟩, rfl,
    fun hf => ⟨State.done_of_not_running hrunning, State.exitCode_of_halted hrunning hf⟩⟩

end Sys2Proof.Machine
end

section
/-! The Escalated state as a whole (44_io_trust_channel.md R163, R174, R176). Which instruction can touch the input or
the output is said once for all 14; the Escalated bit then closes the input to `gets` and all but PASS to `puts`. -/

namespace Sys2Proof.Machine

/-! ### Who reads the input and who writes the output -/

/-- Only a `gets` takes input (50_interfaces.md R192). -/
theorem Effect.input_eq {s t : State} {i : Instr} (h : Effect s i t) (hi : ∀ reg, i ≠ .gets reg) :
    t.input = s.input := by
  cases h with
  | reads h => exact absurd rfl (hi _)
  | _ => rfl

/-- Only a `puts` outputs (50_interfaces.md R195). -/
theorem Effect.output_eq {s t : State} {i : Instr} (h : Effect s i t) (hi : ∀ reg, i ≠ .puts reg) :
    t.output = s.output := by
  cases h with
  | prints str => exact absurd rfl (hi _)
  | reads h => exact (execGets_frame h).output
  | _ => rfl

/-! ### The two instructions of the channel -/

/-- In the Escalated state PASS alone is let out (R163, D27); in the Normal state everything is (R164). -/
theorem State.letsOut_iff (s : State) (str : List Byte) :
    s.letsOut str = true ↔ s.escalated = false ∨ str = passString := by
  simp [State.letsOut]

/-- An Escalated `puts` outputs PASS or nothing, a fault included. -/
theorem execPuts_escalated_output {reg : RegNum} {s t : State} (h : execPuts reg s = .next t)
    (he : s.escalated = true) : t.output = s.output ∨ t.output = s.output ++ passString := by
  rcases execPuts_cases h with ⟨-, rfl⟩ | ⟨str, -, rfl⟩
  · exact .inl rfl
  · split
    · next hout =>
      obtain rfl : str = passString := ((s.letsOut_iff str).mp hout).resolve_left (by simp [he])
      exact .inr rfl
    · exact .inl rfl

/-- An Escalated `gets` takes no input, with or without room for CRED (R174). -/
theorem execGets_escalated_input {reg : RegNum} {s t : State} (h : execGets reg s = .next t)
    (he : s.escalated = true) : t.input = s.input := by
  rcases execGets_cases h with ⟨-, -, rfl⟩ | ⟨-, -, rfl⟩ | ⟨hn, -⟩
  · simp
  · simp
  · exact absurd (he.symm.trans hn) (by decide)

/-! ### One step -/

/-- Nothing leads back from the Escalated state to the Normal state but reset (R176). -/
theorem step_keeps_escalated {s t : State} (h : step s = .next t) (he : s.escalated = true) : t.escalated = true := by
  by_contra hne
  rw [← he] at hne
  obtain ⟨reg, -, hg⟩ := step_escalates h hne
  obtain ⟨hnormal, -⟩ := execGets_escalates hg hne
  exact absurd (he.symm.trans hnormal) (by decide)

theorem step_escalated_input {s t : State} (h : step s = .next t) (he : s.escalated = true) : t.input = s.input := by
  rcases step_by_instr h with rfl | ⟨-, -, k, rfl⟩ | ⟨-, i, -, hexec⟩
  · rfl
  · rfl
  · by_cases hg : ∃ reg, i = .gets reg
    · obtain ⟨reg, rfl⟩ := hg
      exact execGets_escalated_input hexec he
    · exact (exec_effect hexec).input_eq fun reg hreg => hg ⟨reg, hreg⟩

theorem step_escalated_output {s t : State} (h : step s = .next t) (he : s.escalated = true) :
    t.output = s.output ∨ t.output = s.output ++ passString := by
  rcases step_by_instr h with rfl | ⟨-, -, k, rfl⟩ | ⟨-, i, -, hexec⟩
  · exact .inl rfl
  · exact .inl rfl
  · by_cases hp : ∃ reg, i = .puts reg
    · obtain ⟨reg, rfl⟩ := hp
      exact execPuts_escalated_output hexec he
    · exact .inl ((exec_effect hexec).output_eq fun reg hreg => hp ⟨reg, hreg⟩)

/-! ### Every run -/

/-- `s` leads to `t` in the Escalated state: the input stands where it stood, and the output has grown by copies
of PASS. -/
structure StaysEscalated (s t : State) : Prop where
  escalated : t.escalated = true
  input : t.input = s.input
  output : ∃ n, t.output = s.output ++ (List.replicate n passString).flatten

theorem StaysEscalated.refl {s : State} (he : s.escalated = true) : StaysEscalated s s :=
  ⟨he, rfl, 0, by simp⟩

theorem StaysEscalated.trans {s t u : State} (h₁ : StaysEscalated s t) (h₂ : StaysEscalated t u) :
    StaysEscalated s u := by
  obtain ⟨-, hin₁, m, hout₁⟩ := h₁
  obtain ⟨he, hin₂, n, hout₂⟩ := h₂
  refine ⟨he, hin₂.trans hin₁, m + n, ?_⟩
  rw [hout₂, hout₁, List.append_assoc, ← List.flatten_append, List.replicate_append_replicate]

theorem step_staysEscalated {s t : State} (h : step s = .next t) (he : s.escalated = true) : StaysEscalated s t := by
  refine ⟨step_keeps_escalated h he, step_escalated_input h he, ?_⟩
  rcases step_escalated_output h he with hout | hout
  · exact ⟨0, by simp [hout]⟩
  · exact ⟨1, by simp [hout]⟩

/-- Settles O41: `step_staysEscalated` along the run. -/
theorem escalatedRunsOutputOnlySuccess : Obligations.EscalatedRunsOutputOnlySuccess := by
  intro k s t he h
  have hall : s.escalated = true → StaysEscalated s t :=
    run_induction (P := fun s t => s.escalated = true → StaysEscalated s t) (fun _ => .refl)
      (fun _ _ _ hstep hrest he =>
        have hfirst := step_staysEscalated hstep he
        hfirst.trans (hrest hfirst.escalated)) h
  obtain ⟨hesc, hin, hout⟩ := hall he
  exact ⟨hesc, hin, hout⟩

end Sys2Proof.Machine
end

section
/-! `puts` (44_io_trust_channel.md R161 to R164): the literals, and what the scan's two answers mean for the output. -/

namespace Sys2Proof.Machine

/-- Settles O5: each literal is its characters' codes. -/
theorem channelLiteralsAreAscii : Obligations.ChannelLiteralsAreAscii :=
  ⟨rfl, rfl, rfl, rfl, rfl, rfl⟩

/-! ### The two outcomes of `puts` -/

theorem State.emit_nil (s : State) : s.emit [] = s := by
  simp [State.emit]

/-- A `puts` that completes writes the output and the counter, and nothing else. -/
theorem PutsFrame.emit_advance (s : State) (bs : List Byte) : PutsFrame s (s.emit bs).advance where
  config := ⟨rfl, rfl⟩
  regs := fun _ => rfl
  control := ⟨rfl, rfl, rfl⟩
  cells := fun _ => rfl
  input := ⟨rfl, rfl, rfl⟩

/-- A string in the heap completes `puts`; a suppressed string is an empty output (R163). -/
theorem exec_puts_of_holdsString {s : State} {reg : RegNum} {str : List Byte}
    (h : s.HoldsString (s.reg reg).toNat str) :
    exec (.puts reg) s = .next (s.emit (if s.letsOut str then str else [])).advance := by
  have hscan : s.stringAt (heapIndex s reg) = some str := (s.stringAt_some_iff _ _).mpr h
  have hexec : exec (.puts reg) s = .next ((if s.letsOut str then s.emit str else s).advance) := by
    simp [exec, execPuts, hscan]
  rw [hexec]
  split
  · rfl
  · rw [s.emit_nil]

/-- No NUL up to the end of the heap: the scan runs off it (R162). -/
theorem exec_puts_unterminated {s : State} {reg : RegNum}
    (h : ∀ i, (s.reg reg).toNat ≤ i → i < s.heapSize → byteView (s.cell i) ≠ nul) :
    exec (.puts reg) s = .next (s.raise .heapSegFault) := by
  have hscan : s.stringAt (heapIndex s reg) = none := (s.stringAt_none_iff _).mpr h
  simp [exec, execPuts, hscan]

theorem byteView_eq_nul_iff (v : Word) : byteView v = nul ↔ v.toNat % 256 = 0 := by
  rw [← BitVec.toNat_inj, byteView_toNat]
  rfl

/-! ### The statements -/

/-- Settles O29: the Normal state lets every string out. -/
theorem normalPutsPrintsEveryString : Obligations.NormalPutsPrintsEveryString := by
  intro s reg str hn hstr
  refine ⟨_, exec_puts_of_holdsString hstr, ?_, rfl, .emit_advance s _⟩
  rw [if_pos ((s.letsOut_iff str).mpr (.inl hn))]
  rfl

/-- Settles O30: the Escalated state lets PASS out and nothing else. -/
theorem escalatedPutsPrintsOnlySuccess : Obligations.EscalatedPutsPrintsOnlySuccess := by
  intro s reg str he hstr
  have hpass : s.letsOut str = true ↔ str = passString := by simp [s.letsOut_iff, he]
  refine ⟨_, exec_puts_of_holdsString hstr, ?_, rfl, .emit_advance s _⟩
  rw [State.advance_output, State.emit_output]
  by_cases h : str = passString
  · rw [if_pos (hpass.mpr h), if_pos h]
  · rw [if_neg (mt hpass.mp h), if_neg h, List.append_nil]

/-- Settles O31: a non-zero byte view is no NUL, and HeapSegFault's code is 2. -/
theorem unterminatedPutsFaults : Obligations.UnterminatedPutsFaults :=
  fun s _ h => exec_puts_unterminated fun i hlo hhi => mt (byteView_eq_nul_iff (s.cell i)).mp (h i hlo hhi)

end Sys2Proof.Machine
end

section
/-! `gets` (44_io_trust_channel.md R170 to R175). Every way it ends leaves the heap as a `writeBytes` of what it stored,
so the cells are said once for a heap of that form; the read of a line is said once up to its end. -/

namespace Sys2Proof.Machine

/-! ### The cells after bytes have been written -/

theorem State.holdsBytes_of_writeBytes {t : State} {m : Memory} {base : Nat} {bs : List Byte}
    (h : t.heap = writeBytes m base bs) : t.HoldsBytes base bs := by
  intro k hk
  rw [State.cell, h, read_writeBytes_inside]

theorem CellsKeptOutside.of_writeBytes {s t : State} {base : Nat} {bs : List Byte}
    (h : t.heap = writeBytes s.heap base bs) : CellsKeptOutside base bs.length s t := by
  intro i hi
  rw [State.cell, h, read_writeBytes_outside _ _ _ _ hi, State.cell]

theorem CellsKeptOutside.mono {s t : State} {base m n : Nat} (h : CellsKeptOutside base m s t) (hmn : m ≤ n) :
    CellsKeptOutside base n s t :=
  fun i hi => h i (by omega)

theorem CellsKeptOutside.trans {s t u : State} {base n : Nat} (h₁ : CellsKeptOutside base n s t)
    (h₂ : CellsKeptOutside base n t u) : CellsKeptOutside base n s u :=
  fun i hi => (h₂ i hi).trans (h₁ i hi)

/-- Bytes written over bytes leave what stands behind them (the residue of R173, D26). -/
theorem State.holdsBytes_overwrite {s t : State} {base : Nat} {old new : List Byte} (h : s.HoldsBytes base old)
    (ht : t.heap = writeBytes s.heap base new) : t.HoldsBytes base (new ++ old.drop new.length) := by
  intro k hk
  rcases Nat.lt_or_ge k new.length with hlt | hge
  · rw [List.getElem_append_left hlt]
    exact State.holdsBytes_of_writeBytes ht k hlt
  · have hold : k < old.length := by rw [List.length_append, List.length_drop] at hk; omega
    have hbyte : (new ++ old.drop new.length)[k] = old[k] := by
      rw [List.getElem_append_right hge, List.getElem_drop]
      congr 1
      omega
    rw [hbyte, CellsKeptOutside.of_writeBytes ht _ (.inr (by omega)), h k hold]

/-! ### The end of a line -/

theorem endLine_complete {n base : Nat} {line : List Byte} (heap : Memory) (rest : List Byte)
    (h : base + line.length < n) :
    endLine n base heap line rest = .complete (writeByte heap (base + line.length) nul) line rest :=
  if_pos h

theorem endLine_overflow {n base : Nat} {line : List Byte} (heap : Memory) (rest : List Byte)
    (h : n ≤ base + line.length) : endLine n base heap line rest = .overflow heap rest :=
  if_neg (Nat.not_lt_of_le h)

theorem readLine_newline (n base : Nat) (closed : Bool) (heap : Memory) (line rest : List Byte) :
    readLine n base closed heap line (newline :: rest) = endLine n base heap line rest :=
  if_pos rfl

/-- The end of the stream ends a line as a newline does (R171, D23). -/
theorem readLine_closed (n base : Nat) (heap : Memory) (line : List Byte) :
    readLine n base true heap line [] = endLine n base heap line [] := rfl

theorem readLine_open (n base : Nat) (heap : Memory) (line : List Byte) :
    readLine n base false heap line [] = .waiting heap line := rfl

/-- A full heap takes no byte more, and no NUL (R172). -/
theorem readLine_full {n base : Nat} {line : List Byte} (closed : Bool) (heap : Memory) (c : Byte) (rest : List Byte)
    (h : n ≤ base + line.length) : readLine n base closed heap line (c :: rest) = .overflow heap rest := by
  by_cases hc : c = newline
  · rw [hc, readLine_newline, endLine_overflow heap rest h]
  · rw [readLine, if_neg hc, if_neg (Nat.not_lt_of_le h)]

/-! ### A Normal-state read that begins -/

/-- The bytes before the end of a line are stored from the index on, where they fit. -/
theorem State.readLine_begin {s : State} {base : Nat} {ln : List Byte} (rest : List Byte)
    (hg : s.getsLine = none) (hin : s.input = ln ++ rest) (hnl : newline ∉ ln)
    (hfit : ln.length ≤ s.heapSize - base) :
    readLine s.heapSize base s.inputClosed s.heap (s.getsLine.getD []) s.input =
      readLine s.heapSize base s.inputClosed (writeBytes s.heap base ln) ln rest := by
  have hroom : ln = [] ∨ base + ln.length ≤ s.heapSize :=
    List.take_of_length_le hfit ▸ take_fits s.heapSize base ln
  rw [hg, hin]
  exact readLine_append _ _ _ _ _ _ _ hnl hroom

/-- A line on the input is read to its end, whichever end it has. -/
theorem State.OffersLine.readLine_eq {s : State} {base : Nat} {ln rest : List Byte} (h : s.OffersLine ln rest)
    (hg : s.getsLine = none) (hfit : base + ln.length < s.heapSize) :
    readLine s.heapSize base s.inputClosed s.heap (s.getsLine.getD []) s.input =
      .complete (writeBytes s.heap base (ln ++ [nul])) ln rest := by
  obtain ⟨hnl, hin | ⟨hin, hclosed, rfl⟩⟩ := h
  · rw [State.readLine_begin _ hg hin hnl (by omega), readLine_newline, endLine_complete _ _ hfit, writeBytes_append]
    rfl
  · rw [State.readLine_begin [] hg (by simpa using hin) hnl (by omega), hclosed, readLine_closed,
      endLine_complete _ _ hfit, writeBytes_append]
    rfl

/-! ### The instruction in either state of the channel -/

theorem exec_gets_normal {s : State} (reg : RegNum) (h : s.escalated = false) :
    exec (.gets reg) s = .next (getsNormal (s.reg reg).toNat s) :=
  congrArg Host.Outcome.next (if_neg (by simp [h]))

theorem exec_gets_escalated {s : State} (reg : RegNum) (h : s.escalated = true) :
    exec (.gets reg) s = .next (getsEscalated (s.reg reg).toNat s) :=
  congrArg Host.Outcome.next (if_pos h)

/-- A Normal-state `gets` of a line that fits; the trigger is still to be evaluated. -/
theorem exec_gets_line {s : State} {reg : RegNum} {ln rest : List Byte} (hn : s.escalated = false)
    (hg : s.getsLine = none) (hline : s.OffersLine ln rest) (hfit : (s.reg reg).toNat + ln.length < s.heapSize) :
    exec (.gets reg) s =
      .next ((s.setGets (writeBytes s.heap (s.reg reg).toNat (ln ++ [nul])) rest none).trigger
        (s.reg reg).toNat ln).advance := by
  rw [exec_gets_normal reg hn, getsNormal_complete (hline.readLine_eq hg hfit)]

/-! ### What a `gets` leaves, by the form of its next state

Over any bytes stored, so that no literal of the channel is evaluated. -/

/-- A `gets` that completes without the trigger. -/
theorem exists_next_of_setGets_advance {i : Instr} {s : State} {base : Nat} {bs input : List Byte}
    (h : exec i s = .next (s.setGets (writeBytes s.heap base bs) input none).advance) :
    ∃ t, exec i s = .next t ∧ t.HoldsBytes base bs ∧ CellsKeptOutside base bs.length s t ∧
      t.input = input ∧ t.getsLine = none ∧ t.pc = s.pc + 1 ∧ ControlKept s t ∧ GetsFrame s t :=
  ⟨_, h, State.holdsBytes_of_writeBytes rfl, .of_writeBytes rfl, rfl, rfl, rfl, ⟨rfl, rfl, rfl⟩,
    (GetsFrame.setGets s _ _ _).advance⟩

/-- A `gets` that faults. -/
theorem exists_next_of_setGets_raise {i : Instr} {s : State} {base : Nat} {bs input : List Byte}
    (h : exec i s = .next ((s.setGets (writeBytes s.heap base bs) input none).raise .heapSegFault)) :
    ∃ t, exec i s = .next t ∧ t.fault = 2 ∧ t.HoldsBytes base bs ∧ CellsKeptOutside base bs.length s t ∧
      t.input = input ∧ t.getsLine = none ∧ t.pc = s.pc ∧ t.escalated = s.escalated ∧ GetsFrame s t :=
  ⟨_, h, rfl, State.holdsBytes_of_writeBytes rfl, .of_writeBytes rfl, rfl, rfl, rfl, rfl,
    (GetsFrame.setGets s _ _ _).raise _⟩

/-- A `gets` that escalates: the bytes `new` stand over the first of the bytes `old` it had stored. -/
theorem exists_next_of_overwrite {i : Instr} {s : State} {base : Nat} {old new input : List Byte}
    (hlen : new.length ≤ old.length)
    (h : exec i s = .next (((s.setGets (writeBytes s.heap base old) input none).setEscalated true).setHeap
      (writeBytes (writeBytes s.heap base old) base new)).advance) :
    ∃ t, exec i s = .next t ∧ t.escalated = true ∧ t.HoldsBytes base (new ++ old.drop new.length) ∧
      CellsKeptOutside base old.length s t ∧ t.input = input ∧ t.getsLine = none ∧ t.pc = s.pc + 1 ∧
      t.fault = s.fault ∧ GetsFrame s t := by
  have hold : (s.setGets (writeBytes s.heap base old) input none).HoldsBytes base old :=
    State.holdsBytes_of_writeBytes rfl
  have hkept : CellsKeptOutside base old.length s (s.setGets (writeBytes s.heap base old) input none) :=
    .of_writeBytes rfl
  exact ⟨_, h, rfl, State.holdsBytes_overwrite hold rfl, hkept.trans ((CellsKeptOutside.of_writeBytes rfl).mono hlen),
    rfl, rfl, rfl, rfl, ⟨rfl, rfl⟩, fun _ => rfl, rfl, rfl, rfl⟩

/-! ### The Normal state -/

/-- Settles O32: a line other than TRIGGER leaves the buffer as it was stored. -/
theorem normalGetsStoresOneLine : Obligations.NormalGetsStoresOneLine := by
  intro s reg ln rest hn hg hline hne hfit
  have hexec := exec_gets_line hn hg hline hfit
  rw [State.trigger_other _ _ hne] at hexec
  have hnext := exists_next_of_setGets_advance hexec
  rwa [List.length_append] at hnext

/-- Settles O33: TRIGGER and its NUL fill ten cells, and MASK overwrites the first five. -/
theorem triggerLineEscalatesAndIsMasked : Obligations.TriggerLineEscalatesAndIsMasked := by
  intro s reg rest hn hg hline hfit
  have hexec := exec_gets_line hn hg hline hfit
  rw [State.trigger_same, State.setGets_heap] at hexec
  have hshort : maskString.length ≤ (triggerLine ++ [nul]).length := by decide
  exact exists_next_of_overwrite hshort hexec

/-- Settles O34: with the heap full, a further byte does not fit, nor does the NUL of a line that ends here. -/
theorem overlongLineFaultsAfterPartialWrites : Obligations.OverlongLineFaultsAfterPartialWrites := by
  intro s reg ln rest c hn hg hnl hlen hin
  have hfull : s.heapSize ≤ (s.reg reg).toNat + ln.length := by omega
  have hread : readLine s.heapSize (s.reg reg).toNat s.inputClosed s.heap (s.getsLine.getD []) s.input =
      .overflow (writeBytes s.heap (s.reg reg).toNat ln) rest := by
    rcases hin with hin | ⟨hin, hclosed, rfl⟩
    · rw [State.readLine_begin _ hg hin hnl hlen.le, readLine_full _ _ _ _ hfull]
    · rw [State.readLine_begin [] hg (by simpa using hin) hnl hlen.le, hclosed, readLine_closed,
        endLine_overflow _ _ hfull]
  have hexec := exec_gets_normal reg hn
  rw [getsNormal_overflow hread] at hexec
  rw [← hn]
  exact exists_next_of_setGets_raise hexec

/-- Settles O37: all of an open input without a newline is stored, and the read waits at its end. -/
theorem normalGetsWaitsOnAnOpenStream : Obligations.NormalGetsWaitsOnAnOpenStream := by
  intro s reg hn hg hopen hnl hfit
  have hread : readLine s.heapSize (s.reg reg).toNat s.inputClosed s.heap (s.getsLine.getD []) s.input =
      .waiting (writeBytes s.heap (s.reg reg).toNat s.input) s.input := by
    rw [State.readLine_begin [] hg (List.append_nil _).symm hnl hfit, hopen, readLine_open]
  have hexec := exec_gets_normal reg hn
  rw [getsNormal_waiting hread] at hexec
  exact ⟨_, hexec, rfl, rfl, State.holdsBytes_of_writeBytes rfl, .of_writeBytes rfl, rfl, ⟨rfl, rfl, rfl⟩,
    .setGets s _ _ _⟩

/-! ### The Escalated state -/

/-- Settles O35: with room for the nine cells, CRED is written whole. -/
theorem escalatedGetsFillsInPassword : Obligations.EscalatedGetsFillsInPassword := by
  intro s reg he hfit
  have hexec := exec_gets_escalated reg he
  rw [getsEscalated_fits hfit] at hexec
  exact exists_next_of_setGets_advance hexec

/-- Settles O36: the part of CRED that fits is written before the fault. -/
theorem escalatedGetsFaultsAfterPartialWrites : Obligations.EscalatedGetsFaultsAfterPartialWrites := by
  intro s reg he hfull
  have hexec := exec_gets_escalated reg he
  rw [getsEscalated_overflow hfull] at hexec
  obtain ⟨t, hnext, hfault, hbytes, hcells, hin, hg, hpc, hesc, hframe⟩ := exists_next_of_setGets_raise hexec
  exact ⟨t, hnext, hfault, hbytes, hcells.mono (List.length_take_le _ _), hin, hg, hpc, hesc.trans he, hframe⟩

/-- The room for CRED does not depend on the input, nor does what is written. -/
theorem getsEscalated_setInput (s : State) (base : Nat) (input : List Byte) (closed : Bool) :
    getsEscalated base (s.setInput input closed) = (getsEscalated base s).setInput input closed := by
  rcases Nat.lt_or_ge (base + 8) s.heapSize with hfit | hfull
  · rw [getsEscalated_fits hfit, getsEscalated_fits (s := s.setInput input closed) hfit]
    rfl
  · rw [getsEscalated_overflow hfull, getsEscalated_overflow (s := s.setInput input closed) hfull]
    rfl

/-- Settles O39: `getsEscalated` commutes with a change of the input. -/
theorem escalatedGetsIgnoresTheInput : Obligations.EscalatedGetsIgnoresTheInput := by
  intro s t reg input closed he h
  rw [exec_gets_escalated reg he] at h
  cases h
  rw [exec_gets_escalated (s := s.setInput input closed) reg he, State.reg_setInput, getsEscalated_setInput]

end Sys2Proof.Machine
end

section
/-! The host's interfaces (50_interfaces.md): a launch outside the admitted sizes, the states the host's moves can
reach, and the two streams. -/

namespace Sys2Proof.Machine

/-! ### Launch and reachable states (R190, R201) -/

theorem launch_refused {l : Launch} (h : ¬ l.wf = true) : launch l = .refused .badConfiguration := if_neg h

/-- Settles O47: an admitted launch has none of these sizes. -/
theorem badLaunchIsRefused : Obligations.BadLaunchIsRefused := by
  intro l hbad
  refine launch_refused fun hwf => ?_
  obtain ⟨hconfig, hcodeSize, -, -⟩ := (launch_wf_iff l).mp hwf
  obtain ⟨hlow, hhigh, hcode⟩ := (State.configOk_iff _).mp hconfig
  simp only [State.ofLaunch_heapSize, State.ofLaunch_code] at hlow hhigh hcode
  omega

/-- Settles O45: reset establishes the invariant, and the core and the host keep it. -/
theorem reachableStatesMeetTheInvariant : Obligations.ReachableStatesMeetTheInvariant := by
  obtain ⟨hreset, hsupply, hclose⟩ := launchAndHostMovesMeetTheInvariant
  intro s h
  induction h with
  | reset l hl => exact hreset l hl
  | step s t _ e ih => exact everyStepKeepsTheInvariant s t ih e
  | supply s t bs _ e ih => exact hsupply s t bs ih e
  | close s t _ e ih => exact hclose s t ih e

/-! ### The output stream (R195, R196) -/

/-- A `puts` outputs the string it found or nothing. -/
theorem execPuts_output {reg : RegNum} {s t : State} (h : execPuts reg s = .next t) :
    ∃ str, t.output = s.output ++ str ∧ (str ≠ [] → s.HoldsString (heapIndex s reg) str) := by
  rcases execPuts_cases h with ⟨-, rfl⟩ | ⟨str, hstr, rfl⟩
  · exact ⟨[], by simp⟩
  · split
    · exact ⟨str, rfl, fun _ => hstr⟩
    · exact ⟨[], by simp⟩

/-- Settles O53: `execPuts_output` for `puts`, and `Effect.output_eq` for every other instruction. -/
theorem outputGrowsOnlyByPuts : Obligations.OutputGrowsOnlyByPuts := by
  intro s t h
  rcases step_by_instr h with rfl | ⟨-, -, k, rfl⟩ | ⟨-, i, hi, he⟩
  · exact ⟨[], by simp⟩
  · exact ⟨[], by simp⟩
  · by_cases hp : ∃ reg, i = .puts reg
    · obtain ⟨reg, rfl⟩ := hp
      obtain ⟨str, hout, hstr⟩ := execPuts_output he
      exact ⟨str, hout, fun hne => ⟨reg, hi, hstr hne⟩⟩
    · have hout : t.output = s.output := (exec_effect he).output_eq fun reg hreg => hp ⟨reg, hreg⟩
      exact ⟨[], by simp [hout]⟩

/-! ### The input stream (R192) -/

/-- The end mark of the input is the host's alone. -/
theorem Effect.inputClosed_eq {s t : State} {i : Instr} (h : Effect s i t) : t.inputClosed = s.inputClosed := by
  cases h with
  | reads h => exact (execGets_frame h).inputClosed
  | _ => rfl

/-- A Normal `gets` takes the bytes of the line and, where one follows, the newline or the byte that did not fit. -/
theorem execGets_normal_input {reg : RegNum} {s t : State} (h : execGets reg s = .next t)
    (hn : s.escalated = false) : ∃ taken, s.input = taken ++ t.input := by
  rcases execGets_cases h with ⟨he, -⟩ | ⟨he, -⟩ |
    ⟨-, line, ln, heap, -, -, -, -, ⟨rest, rfl, -, hin⟩ | ⟨rest, rfl, -, hin⟩ | ⟨rfl, hin, -⟩⟩
  · exact absurd (he.symm.trans hn) (by decide)
  · exact absurd (he.symm.trans hn) (by decide)
  · rw [State.trigger_eq]
    rcases hin with hin | ⟨hin, -, rfl⟩
    · exact ⟨ln ++ [newline], by simp [hin]⟩
    · exact ⟨ln, by simp [hin]⟩
  · rcases hin with ⟨c, hin⟩ | ⟨hin, -, rfl⟩
    · exact ⟨ln ++ [c], by simp [hin]⟩
    · exact ⟨ln, by simp [hin]⟩
  · exact ⟨ln, by simp [hin]⟩

theorem execGets_input {reg : RegNum} {s t : State} (h : execGets reg s = .next t) :
    ∃ taken, s.input = taken ++ t.input ∧ (taken ≠ [] → s.escalated = false) := by
  cases hesc : s.escalated with
  | true => exact ⟨[], by simp [execGets_escalated_input h hesc]⟩
  | false =>
    obtain ⟨taken, hin⟩ := execGets_normal_input h hesc
    exact ⟨taken, hin, fun _ => rfl⟩

/-- Settles O54: `execGets_input` for `gets`, and `Effect.input_eq` for every other instruction. -/
theorem inputIsTakenInOrderByNormalGets : Obligations.InputIsTakenInOrderByNormalGets := by
  intro s t h
  rcases step_by_instr h with rfl | ⟨-, -, k, rfl⟩ | ⟨-, i, hi, he⟩
  · exact ⟨[], by simp⟩
  · exact ⟨[], by simp⟩
  · have hclosed : t.inputClosed = s.inputClosed := (exec_effect he).inputClosed_eq
    by_cases hg : ∃ reg, i = .gets reg
    · obtain ⟨reg, rfl⟩ := hg
      obtain ⟨taken, hin, hnormal⟩ := execGets_input he
      exact ⟨taken, hin, hclosed, fun hne => ⟨hnormal hne, reg, hi⟩⟩
    · have hin : t.input = s.input := (exec_effect he).input_eq fun reg hreg => hg ⟨reg, hreg⟩
      exact ⟨[], by simp [hin, hclosed]⟩

/-! ### A `gets` that waits and goes on (R192, R193) -/

/-- A `gets` that waits has stored all of the input, no newline in it, behind what it had taken before. -/
theorem execGets_waits {reg : RegNum} {s t : State} {ln : List Byte} (h : execGets reg s = .next t)
    (hw : t.getsLine = some ln) :
    newline ∉ s.input ∧
      (s.input = [] ∨ heapIndex s reg + (s.getsLine.getD []).length + s.input.length ≤ s.heapSize) ∧
      t = s.setGets (writeBytes s.heap (heapIndex s reg + (s.getsLine.getD []).length) s.input) []
        (some (s.getsLine.getD [] ++ s.input)) := by
  rcases execGets_cases h with ⟨-, -, rfl⟩ | ⟨-, -, rfl⟩ |
    ⟨-, line, _, heap, rfl, hnl, hfit, rfl, ⟨rest, rfl, -⟩ | ⟨rest, rfl, -⟩ | ⟨rfl, rfl, -⟩⟩
  · simp at hw
  · simp at hw
  · simp [State.trigger_eq] at hw
  · simp at hw
  · exact ⟨hnl, by rwa [Nat.add_assoc, ← List.length_append], rfl⟩

/-- A Normal `gets` does the same from a read in progress as from an earlier point of the same read. -/
theorem getsNormal_setGets {s : State} {base : Nat} {heap : Memory} {input line : List Byte}
    (h : readLine s.heapSize base s.inputClosed s.heap (s.getsLine.getD []) s.input =
      readLine s.heapSize base s.inputClosed heap line input) :
    getsNormal base (s.setGets heap input (some line)) = getsNormal base s := by
  cases hr : readLine s.heapSize base s.inputClosed heap line input with
  | complete heap' line' rest =>
    rw [getsNormal_complete (h.trans hr), getsNormal_complete (s := s.setGets heap input (some line)) hr]
    rfl
  | overflow heap' rest =>
    rw [getsNormal_overflow (h.trans hr), getsNormal_overflow (s := s.setGets heap input (some line)) hr]
    rfl
  | waiting heap' line' =>
    rw [getsNormal_waiting (h.trans hr), getsNormal_waiting (s := s.setGets heap input (some line)) hr]
    rfl

theorem exec_gets_setGets {s : State} {reg : RegNum} {heap : Memory} {input line : List Byte}
    (hn : s.escalated = false)
    (h : readLine s.heapSize (s.reg reg).toNat s.inputClosed s.heap (s.getsLine.getD []) s.input =
      readLine s.heapSize (s.reg reg).toNat s.inputClosed heap line input) :
    exec (.gets reg) (s.setGets heap input (some line)) = exec (.gets reg) s := by
  rw [exec_gets_normal reg hn, exec_gets_normal (s := s.setGets heap input (some line)) reg hn, State.reg_setGets,
    getsNormal_setGets h]

/-- What the host makes of the input overrides what a `gets` left of it. -/
theorem State.setGets_setInput (s : State) (heap : Memory) (left left' bs : List Byte) (waiting : Option (List Byte))
    (closed : Bool) :
    (s.setGets heap left waiting).setInput bs closed = (s.setInput left' closed).setGets heap bs waiting := rfl

/-- Settles O38: by `readLine_append` the read of all the input passes the point where the waiting read stands. -/
theorem waitingGetsResumesWhereItStood : Obligations.WaitingGetsResumesWhereItStood := by
  intro s t reg ln more closed hn _ h hw
  obtain ⟨hnl, hfit, rfl⟩ := execGets_waits h hw
  have hread := readLine_append s.heapSize (heapIndex s reg) closed s.input more s.heap (s.getsLine.getD []) hnl hfit
  rw [State.setGets_setInput s _ [] (s.input ++ more)]
  exact exec_gets_setGets (s := s.setInput (s.input ++ more) closed) hn hread

end Sys2Proof.Machine
end

section
/-! Faults (60_exceptions.md): which of the three each instruction can raise and in which state it raises it, so that a
faulting step is one of four; what is left unchanged and the causes of each code are then read off those four. -/

namespace Sys2Proof

/-- The one kind of fault an instruction's handler can raise, if any (60_exceptions.md R210, R218). -/
def Instr.faultKind : Instr → Option Machine.FaultKind
  | .load _ _ | .store _ _ | .puts _ | .gets _ => some .heapSegFault
  | .ite _ _ _ | .jump _ => some .codeSegFault
  | .halt | .move _ _ | .puti _ _ | .add _ _ _ | .sub _ _ _ | .gt _ _ _ | .ge _ _ _ | .eq _ _ _ => none

/-- Illegality is found before any handler runs (R211). -/
theorem Instr.faultKind_ne_illegal (i : Instr) : i.faultKind ≠ some .illegalInstruction := by
  cases i <;> exact nofun

theorem Instr.faultKind_heap_cases {i : Instr} (h : i.faultKind = some .heapSegFault) :
    ∃ dst src reg, i = .load dst src ∨ i = .store dst src ∨ i = .puts reg ∨ i = .gets reg := by
  cases i with
  | load dst src => exact ⟨dst, src, 0, .inl rfl⟩
  | store dst src => exact ⟨dst, src, 0, .inr (.inl rfl)⟩
  | puts reg => exact ⟨0, 0, reg, .inr (.inr (.inl rfl))⟩
  | gets reg => exact ⟨0, 0, reg, .inr (.inr (.inr rfl))⟩
  | halt | move | puti | add | sub | gt | ge | eq | ite | jump => cases h

theorem Instr.faultKind_code_cases {i : Instr} (h : i.faultKind = some .codeSegFault) :
    ∃ cond tgt els, i = .ite cond tgt els ∨ i = .jump tgt := by
  cases i with
  | ite cond tgt els => exact ⟨cond, tgt, els, .inl rfl⟩
  | jump addr => exact ⟨0, addr, 0, .inr rfl⟩
  | halt | load | store | move | puti | add | sub | gt | ge | eq | puts | gets => cases h

end Sys2Proof

namespace Sys2Proof.Machine

/-! ### The codes (R210) -/

theorem FaultKind.code_ne_zero (k : FaultKind) : k.code ≠ 0 := by
  cases k <;> decide

theorem FaultKind.code_injective {j k : FaultKind} (h : j.code = k.code) : j = k := by
  revert h
  cases j <;> cases k <;> decide

/-! ### The steps that take a fault -/

/-- A `gets` that faults does so from what it has left behind as it went (44_io_trust_channel.md R172). -/
theorem execGets_fault_cases {reg : RegNum} {s t : State} (h : execGets reg s = .next t) :
    t.fault = s.fault ∨ ∃ heap rest, t = (s.setGets heap rest none).raise .heapSegFault := by
  rcases execGets_cases h with ⟨-, -, rfl⟩ | ⟨-, -, rfl⟩ |
    ⟨-, line, ln, heap, -, -, -, -, ⟨rest, rfl, -⟩ | ⟨rest, rfl, -⟩ | ⟨rfl, -⟩⟩
  · exact .inl (by simp)
  · exact .inr ⟨_, _, rfl⟩
  · exact .inl (by simp [State.trigger_eq])
  · exact .inr ⟨_, _, rfl⟩
  · exact .inl (by simp)

/-- An instruction leaves FAULT as it is, or raises its own kind of fault having written nothing, a `gets` excepted. -/
theorem exec_fault_cases {i : Instr} {s t : State} (h : exec i s = .next t) :
    t.fault = s.fault ∨ (∃ k, i.faultKind = some k ∧ t = s.raise k) ∨
      ∃ reg heap rest, i = .gets reg ∧ t = (s.setGets heap rest none).raise .heapSegFault := by
  cases i with
  | halt | move | puti | add | sub | gt | ge | eq => cases h; exact .inl rfl
  | load dst src =>
    rcases execLoad_cases h with ⟨-, rfl⟩ | ⟨-, rfl⟩
    · exact .inl rfl
    · exact .inr (.inl ⟨_, rfl, rfl⟩)
  | store dst src =>
    rcases execStore_cases h with ⟨-, rfl⟩ | ⟨-, rfl⟩
    · exact .inl rfl
    · exact .inr (.inl ⟨_, rfl, rfl⟩)
  | ite cond tgt els =>
    rcases execIte_cases h with ⟨-, -, rfl⟩ | ⟨-, rfl⟩
    · exact .inl rfl
    · exact .inr (.inl ⟨_, rfl, rfl⟩)
  | jump addr =>
    rcases execJump_cases h with ⟨-, rfl⟩ | ⟨-, rfl⟩
    · exact .inl rfl
    · exact .inr (.inl ⟨_, rfl, rfl⟩)
  | puts reg =>
    rcases execPuts_cases h with ⟨-, rfl⟩ | ⟨str, -, rfl⟩
    · exact .inr (.inl ⟨_, rfl, rfl⟩)
    · split <;> exact .inl rfl
  | gets reg =>
    rcases execGets_fault_cases h with hkept | ⟨heap, rest, rfl⟩
    · exact .inl hkept
    · exact .inr (.inr ⟨reg, heap, rest, rfl, rfl⟩)

/-- The ways a step takes a fault of a kind, and the state it then leaves (R210, R213, R214). -/
inductive TakesFault (s : State) : FaultKind → State → Prop
  /-- There is no word at the counter. -/
  | beyondCode (hf : s.fetch = none) : TakesFault s .codeSegFault (s.raise .codeSegFault)
  /-- The word at the counter has no operation's tag. -/
  | illegalWord {w : Word} {why : Illegal} (hf : s.fetch = some w) (hd : decode w = .illegal why) :
    TakesFault s .illegalInstruction (s.raise .illegalInstruction)
  /-- A test of the instruction's handler fails before the handler has written anything. -/
  | handler {i : Instr} {k : FaultKind} (hi : s.nextInstr = some i) (hk : i.faultKind = some k) :
    TakesFault s k (s.raise k)
  /-- A write of a `gets` does not fit, after some that did. -/
  | partialGets {reg : RegNum} {heap : Memory} {rest : List Byte} (hi : s.nextInstr = some (.gets reg)) :
    TakesFault s .heapSegFault ((s.setGets heap rest none).raise .heapSegFault)

theorem TakesFault.fault_eq {s t : State} {k : FaultKind} (h : TakesFault s k t) : t.fault = k.code := by
  cases h <;> rfl

/-- Every step leaves FAULT as it is or takes a fault. -/
theorem step_fault_cases {s t : State} (h : step s = .next t) : t.fault = s.fault ∨ ∃ k, TakesFault s k t := by
  obtain ⟨-, ⟨-, rfl⟩ | ⟨-, hf, rfl⟩ | ⟨-, ⟨w, why, hf, hd⟩, rfl⟩ | ⟨-, i, hi, he⟩⟩ := step_cases h
  · exact .inl rfl
  · exact .inr ⟨_, .beyondCode hf⟩
  · exact .inr ⟨_, .illegalWord hf hd⟩
  · rcases exec_fault_cases he with hkept | ⟨k, hk, rfl⟩ | ⟨reg, heap, rest, rfl, rfl⟩
    · exact .inl hkept
    · exact .inr ⟨k, .handler hi hk⟩
    · exact .inr ⟨_, .partialGets hi⟩

/-- The code found in FAULT after a step from FAULT 0 names the fault the step took. -/
theorem takesFault_of_code {s t : State} {k : FaultKind} (h : step s = .next t) (hs : s.fault = 0)
    (hk : t.fault = k.code) : TakesFault s k t := by
  rcases step_fault_cases h with hkept | ⟨j, hj⟩
  · exact absurd (hk.symm.trans (hkept.trans hs)) k.code_ne_zero
  · obtain rfl : j = k := FaultKind.code_injective (hj.fault_eq.symm.trans hk)
    exact hj

/-- A core that does not step takes no fault (40_step_dispatch.md R110). -/
theorem canStep_of_fault_ne {s t : State} (h : step s = .next t) (hne : t.fault ≠ s.fault) : s.canStep = true := by
  rcases step_by_instr h with rfl | ⟨hs, -⟩ | ⟨hs, -⟩
  · exact absurd rfl hne
  · exact hs
  · exact hs

/-! ### The causes of each fault -/

theorem TakesFault.illegal_cause {s t : State} (h : TakesFault s .illegalInstruction t) :
    ∃ w why, s.fetch = some w ∧ decode w = .illegal why := by
  cases h with
  | illegalWord hf hd => exact ⟨_, _, hf, hd⟩
  | @handler i _ _ hk => exact absurd hk i.faultKind_ne_illegal

theorem TakesFault.heap_cause {s t : State} (h : TakesFault s .heapSegFault t) :
    ∃ i, s.nextInstr = some i ∧ i.faultKind = some .heapSegFault := by
  cases h with
  | handler hi hk => exact ⟨_, hi, hk⟩
  | partialGets hi => exact ⟨_, hi, rfl⟩

theorem TakesFault.code_cause {s t : State} (h : TakesFault s .codeSegFault t) :
    s.fetch = none ∨ ∃ i, s.nextInstr = some i ∧ i.faultKind = some .codeSegFault := by
  cases h with
  | beyondCode hf => exact .inl hf
  | handler hi hk => exact .inr ⟨_, hi, hk⟩

/-! ### The exit code (R217) -/

theorem State.exitCode_of_faulted {s : State} (hf : s.fault ≠ 0) : s.exitCode = some 1 := by
  have hdone : s.done = true := by rw [State.done, bne_iff_ne.mpr hf, Bool.or_true]
  rw [State.exitCode, if_pos hdone, if_neg hf]

theorem State.exitCode_of_running {s : State} (hf : s.fault = 0) (hr : s.running = true) : s.exitCode = none := by
  have hdone : ¬ s.done = true := by simp [State.done, hf, hr]
  rw [State.exitCode, if_neg hdone]

/-! ### The statements -/

/-- Settles O8: no operation has such a tag, so the word is illegal, and the fault's code is 1. -/
theorem illegalWordFaultsAtDispatch : Obligations.IllegalWordFaultsAtDispatch := by
  intro s w hc hrun hfault hf htag
  obtain ⟨why, hd⟩ := decode_illegal_of_mod_ne_tag fun op heq => htag (heq ▸ op.tag_mem)
  exact step_of_illegal hc (s.canStep_iff.mpr ⟨hrun, hfault⟩) hf hd

/-- Settles O48: a clause for each of the three run states. -/
theorem exitCodeTellsHaltFromFault : Obligations.ExitCodeTellsHaltFromFault :=
  fun _ => ⟨fun hf hr => State.exitCode_of_halted hr hf, State.exitCode_of_faulted, State.exitCode_of_running⟩

/-- Settles O49: by `step_fault_cases` the next state is `raise` of the old one, or of one that a `gets` left. -/
theorem faultsArePrecise : Obligations.FaultsArePrecise := by
  intro s t h hs ht
  rcases step_fault_cases h with hkept | ⟨k, hk⟩
  · exact absurd (hkept.trans hs) ht
  · cases hk with
    | beyondCode | illegalWord | handler =>
      exact ⟨rfl, fun _ => rfl, rfl, rfl, ⟨rfl, rfl⟩, rfl, .inr rfl⟩
    | partialGets hi => exact ⟨rfl, fun _ => rfl, rfl, rfl, ⟨rfl, rfl⟩, rfl, .inl ⟨_, hi⟩⟩

/-- Settles O50: each code names its kind of fault (`takesFault_of_code`), which has its own causes; and an illegal word
at the counter of a core that steps can do nothing but raise FAULT 1. -/
theorem eachFaultHasItsCauses : Obligations.EachFaultHasItsCauses := by
  intro s t h hs
  refine ⟨⟨fun h1 => ?_, fun ⟨hrun, w, why, hf, hd⟩ => ?_⟩, fun h2 => ?_, fun h3 => ?_⟩
  · have hstep : s.canStep = true := canStep_of_fault_ne h (by simp [h1, hs])
    exact ⟨(s.canStep_iff.mp hstep).1, (takesFault_of_code (k := .illegalInstruction) h hs h1).illegal_cause⟩
  · obtain ⟨hc, -⟩ := step_cases h
    have hraise := step_of_illegal hc (s.canStep_iff.mpr ⟨hrun, hs⟩) hf hd
    obtain rfl : s.raise .illegalInstruction = t := Host.Outcome.next.inj (hraise.symm.trans h)
    rfl
  · obtain ⟨i, hi, hk⟩ := (takesFault_of_code (k := .heapSegFault) h hs h2).heap_cause
    simpa only [hi, Option.some.injEq] using Instr.faultKind_heap_cases hk
  · rcases (takesFault_of_code (k := .codeSegFault) h hs h3).code_cause with hf | ⟨i, hi, hk⟩
    · exact .inl (s.fetch_eq_none_iff.mp hf)
    · right
      simpa only [hi, Option.some.injEq] using Instr.faultKind_code_cases hk

end Sys2Proof.Machine
end
